-- ==== Sys2Proof/Config.lean ====
section
/-! DEFINITION. The implementation parameters of 00_scope R8. What the spec fixes is a number here; what it
leaves OPEN is an opaque constant, so that nothing can be proved of its value (log entries 1 and 2). -/

namespace Sys2Proof.Config

/-- INT_WIDTH_MIN, the smallest legal W_INT width (00_scope R8). -/
def intWidthMin : Nat := 1
/-- INT_WIDTH_MAX, the largest legal W_INT width (00_scope R8). -/
def intWidthMax : Nat := 64
/-- FW_MIN, the smallest legal reader field width (00_scope R8, decision D12). -/
def fwMin : Nat := 1
/-- FW_MAX, the largest legal reader field width (00_scope R8, decision D12). -/
def fwMax : Nat := 32
/-- WBYTES_N_MAX, the longest span one W_BYTES header can spell (00_scope R8). -/
def wbytesNMax : Nat := 2 ^ 24 - 1
/-- WSTR_MAX, the longest text and the widest field one W_STR header can spell (00_scope R8). -/
def wstrMax : Nat := 2 ^ 12 - 1
/-- RINIT_N_MAX, the longest source one R_INIT header can spell (00_scope R8). -/
def rinitNMax : Nat := 2 ^ 22 - 1

/-- OPEN: WBUF_BYTES less one. 00_scope R8 asks only WBUF_BYTES >= 1. -/
opaque wbufBytesLessOne : Nat
/-- WBUF_BYTES of the machine that `State.reset` describes: any number from 1 up. -/
def wbufBytes : Nat := wbufBytesLessOne + 1
/-- OPEN: RBUF_BYTES of the machine that `State.reset` describes: any number (00_scope R8). -/
opaque rbufBytes : Nat
/-- OPEN: N_WRITERS less one. -/
opaque nWritersLessOne : Nat
/-- N_WRITERS, at least one (DEDUCED, log entry 2). -/
def nWriters : Nat := nWritersLessOne + 1
/-- OPEN: N_READERS less one. -/
opaque nReadersLessOne : Nat
/-- N_READERS, at least one (DEDUCED, log entry 2). -/
def nReaders : Nat := nReadersLessOne + 1

/-- BITLEN_BITS for a buffer of `cap` bytes: the least k with 2^k > 8 * cap (00_scope R8). For no
bytes, which R8 excludes, it is 1 (DESIGN CHOICE, log entry 12). -/
def bitlenBits (cap : Nat) : Nat := Nat.log2 (8 * cap) + 1

end Sys2Proof.Config
end

