-- ==== Sys2Proof/Word.lean ====
section
/-! DEFINITION. The units the commands are made of: the byte, the 32-bit command word, and the command
transaction (30_encoding R70). -/

namespace Sys2Proof

/-- A byte, the unit of BUF, SRC and every span (00_scope R12). -/
abbrev Byte := BitVec 8

/-- A header word or a payload word (30_encoding R70). -/
abbrev Word := BitVec 32

/-- One command as it reaches a port: the header word H and the list P of payload words (30_encoding R70). -/
structure Transaction where
  header : Word
  payload : List Word
  deriving DecidableEq, Repr

end Sys2Proof
end

