-- ==== Sys2Proof/Syntax.lean ====
section
/-! DEFINITION. The eight commands of the opcode map (30_encoding R72), with their operands as R73 to R80 give
them. A span's length n (or L) is the length of its list of bytes. -/

namespace Sys2Proof

/-- One constructor per row of the opcode table. -/
inductive Instr where
  /-- W_NEW (40_bitwriter R102). -/
  | wNew
  /-- W_BIT b (40_bitwriter R103). -/
  | wBit (b : Bool)
  /-- W_INT value, w: `w = H[6:0]`, value from the two payload words (40_bitwriter R104, 30_encoding R80). -/
  | wInt (w : BitVec 7) (value : BitVec 64)
  /-- W_BYTES bytes (40_bitwriter R106). -/
  | wBytes (bytes : List Byte)
  /-- W_STR text, F: the fixed width F and the L text bytes (40_bitwriter R108). -/
  | wStr (f : BitVec 12) (text : List Byte)
  /-- W_FINISH (40_bitwriter R109). -/
  | wFinish
  /-- R_INIT W, bytes (41_bitfieldreader R131). -/
  | rInit (w : BitVec 6) (bytes : List Byte)
  /-- R_NEXT (41_bitfieldreader R132). -/
  | rNext
  deriving DecidableEq, Repr

end Sys2Proof
end

