-- ==== Sys2Proof/WellFormed.lean ====
section
/-! DEFINITION. Which commands a header can spell: the span lengths that fit their header fields
(30_encoding R76 to R78, R88, R90). Widths 0, above 64 or above 32 and L > F are well formed: they encode, and the
engine answers them with an error status (R88). -/

namespace Sys2Proof

/-- The command's lengths fit the fields of its header (30_encoding R76, R77, R78). -/
def Instr.wellFormed : Instr → Bool
  | .wNew => true
  | .wBit _ => true
  | .wInt _ _ => true
  | .wBytes bytes => decide (bytes.length ≤ Config.wbytesNMax)
  | .wStr _ text => decide (text.length ≤ Config.wstrMax)
  | .wFinish => true
  | .rInit _ bytes => decide (bytes.length ≤ Config.rinitNMax)
  | .rNext => true

end Sys2Proof
end

