-- ==== Sys2Proof/Decode.lean ====
section
/-! DEFINITION. The binary layer (30_encoding): the decoder of a transaction, total and rejecting by name
(R85), the framing of a word stream (R85), and after them the encoder. -/

namespace Sys2Proof

/-- The eight opcodes in use (30_encoding R72). -/
inductive Opcode where
  | wNew | wBit | wInt | wBytes | wStr | wFinish | rInit | rNext
  deriving DecidableEq, Repr

/-- The two kinds of engine, each with its own kind of port (30_encoding R71). -/
inductive Engine where
  | writer | reader
  deriving DecidableEq, Repr

/-- Why a transaction is no command. Each is answered with ILLEGAL_COMMAND (60_exceptions R152); the host does not
see which it was. -/
inductive DecodeError where
  /-- Opcode 0x0, 0x7 or 0xA to 0xF (30_encoding R83). -/
  | reservedOpcode
  /-- A header bit that the format reserves is 1 (30_encoding R82). -/
  | reservedBit
  /-- The payload is not as long as the header says (30_encoding R81). -/
  | payloadLength
  /-- An unused byte lane of the last payload word is nonzero (30_encoding R79, R81). -/
  | unusedLane
  deriving DecidableEq, Repr

/-- The opcode map (30_encoding R72); `none` for the reserved opcodes. -/
def Opcode.ofBits (op : BitVec 4) : Option Opcode :=
  if op = 0x1#4 then some .wNew
  else if op = 0x2#4 then some .wBit
  else if op = 0x3#4 then some .wInt
  else if op = 0x4#4 then some .wBytes
  else if op = 0x5#4 then some .wStr
  else if op = 0x6#4 then some .wFinish
  else if op = 0x8#4 then some .rInit
  else if op = 0x9#4 then some .rNext
  else none

/-- `op = H[31:28]` (30_encoding R71). -/
def opcodeBits (h : Word) : BitVec 4 := h.extractLsb' 28 4

/-- The command a header selects. -/
def opcodeOf (h : Word) : Option Opcode := Opcode.ofBits (opcodeBits h)

/-- The header bits each format reserves (30_encoding R73 to R78, R82). -/
def Opcode.reservedMask : Opcode → Word
  | .wNew | .wFinish | .rNext => 0x0FFFFFFF#32
  | .wBit => 0x0FFFFFFE#32
  | .wInt => 0x0FFFFF80#32
  | .wBytes | .wStr => 0x0F000000#32
  | .rInit => 0x00000000#32

/-- The length in bytes of the span a header announces: n, L, n, or none (30_encoding R76 to R78). -/
def Opcode.spanLength (h : Word) : Opcode → Nat
  | .wBytes => (h.extractLsb' 0 24).toNat
  | .wStr => (h.extractLsb' 12 12).toNat
  | .rInit => (h.extractLsb' 0 22).toNat
  | .wNew | .wBit | .wInt | .wFinish | .rNext => 0

/-- `ceil(n / 4)`, the payload words of an n-byte span (30_encoding R79). -/
def spanWords (n : Nat) : Nat := (n + 3) / 4

/-- The payload words a command of this opcode carries (30_encoding R81, R85). -/
def Opcode.payloadWords (h : Word) : Opcode → Nat
  | .wNew | .wBit | .wFinish | .rNext => 0
  | .wInt => 2
  | .wBytes => spanWords (Opcode.spanLength h .wBytes)
  | .wStr => spanWords (Opcode.spanLength h .wStr)
  | .rInit => spanWords (Opcode.spanLength h .rInit)

/-- `PayloadWords(H)` (30_encoding R85): 0 for a reserved opcode. -/
def payloadWords (h : Word) : Nat :=
  match opcodeOf h with
  | some op => op.payloadWords h
  | none => 0

/-- The four byte lanes of a payload word, first byte in bits 31:24 (30_encoding R79). -/
def wordBytes (w : Word) : List Byte :=
  [w.extractLsb' 24 8, w.extractLsb' 16 8, w.extractLsb' 8 8, w.extractLsb' 0 8]

/-- All byte lanes of a payload in order. -/
def payloadBytes (p : List Word) : List Byte := p.flatMap wordBytes

/-- `Unpack(P, n)`: the first n byte lanes (30_encoding R79), fewer where P has fewer (DESIGN CHOICE, log entry 12). -/
def unpack (p : List Word) (n : Nat) : List Byte := (payloadBytes p).take n

/-- Every byte lane after the n of the span is zero (30_encoding R79, R81). -/
def lanesZero (p : List Word) (n : Nat) : Bool := ((payloadBytes p).drop n).all (fun b => b == 0#8)

/-- `(P[0] << 32) | P[1]` (30_encoding R80); a missing word reads as 0 (DESIGN CHOICE, log entry 12). -/
def intValue (p : List Word) : BitVec 64 :=
  (p.getD 0 0#32).setWidth 64 <<< 32 ||| (p.getD 1 0#32).setWidth 64

/-- A command of known opcode with its operands (30_encoding R80). -/
def Opcode.instr (h : Word) (p : List Word) : Opcode → Instr
  | .wNew => .wNew
  | .wBit => .wBit (h.getLsbD 0)
  | .wInt => .wInt (h.extractLsb' 0 7) (intValue p)
  | .wBytes => .wBytes (unpack p (Opcode.spanLength h .wBytes))
  | .wStr => .wStr (h.extractLsb' 0 12) (unpack p (Opcode.spanLength h .wStr))
  | .wFinish => .wFinish
  | .rInit => .rInit (h.extractLsb' 22 6) (unpack p (Opcode.spanLength h .rInit))
  | .rNext => .rNext

/-- Whether the format of this opcode has a span, whose unused lanes must be zero (30_encoding R76 to R79). -/
def Opcode.hasSpan : Opcode → Bool
  | .wBytes | .wStr | .rInit => true
  | .wNew | .wBit | .wInt | .wFinish | .rNext => false

/-- Decoding of a transaction: one of the eight commands, or the reason it is ILLEGAL_COMMAND (30_encoding R81 to
R85). Which port it came to is checked where the port is known (`State.onWriter`, `State.onReader`). -/
def decode (t : Transaction) : Except DecodeError Instr :=
  match opcodeOf t.header with
  | none => .error .reservedOpcode
  | some op =>
    if t.header &&& op.reservedMask ≠ 0#32 then .error .reservedBit
    else if t.payload.length ≠ op.payloadWords t.header then .error .payloadLength
    else if op.hasSpan && !lanesZero t.payload (op.spanLength t.header) then .error .unusedLane
    else .ok (op.instr t.header t.payload)

/-- Framing of a word stream by `PayloadWords` (30_encoding R85): the first transaction and the words after it;
`none` where the stream ends inside a transaction (DESIGN CHOICE, log entry 12). -/
def frame : List Word → Option (Transaction × List Word)
  | [] => none
  | h :: rest =>
    if rest.length < payloadWords h then none
    else some (⟨h, rest.take (payloadWords h)⟩, rest.drop (payloadWords h))

/-- The kind of engine a command is for (30_encoding R72). -/
def Instr.engine : Instr → Engine
  | .wNew | .wBit _ | .wInt _ _ | .wBytes _ | .wStr _ _ | .wFinish => .writer
  | .rInit _ _ | .rNext => .reader

/-! ### The encoder -/

/-- A payload word from its four byte lanes (30_encoding R79). -/
def wordOfBytes (a b c d : Byte) : Word := a ++ b ++ c ++ d

/-- The payload words of a span, unused lanes zero (30_encoding R79). -/
def packWords : List Byte → List Word
  | [] => []
  | [a] => [wordOfBytes a 0#8 0#8 0#8]
  | [a, b] => [wordOfBytes a b 0#8 0#8]
  | [a, b, c] => [wordOfBytes a b c 0#8]
  | a :: b :: c :: d :: rest => wordOfBytes a b c d :: packWords rest

/-- The header of a command (30_encoding R73 to R78). The spec spells no command that is not well formed; its length
runs over into the fields above (DESIGN CHOICE, log entry 12). -/
def encodeHeader : Instr → Word
  | .wNew => 0x10000000#32
  | .wBit b => 0x20000000#32 ||| (if b then 1#32 else 0#32)
  | .wInt w _ => 0x30000000#32 ||| w.setWidth 32
  | .wBytes bytes => 0x40000000#32 ||| BitVec.ofNat 32 bytes.length
  | .wStr f text => 0x50000000#32 ||| BitVec.ofNat 32 text.length <<< 12 ||| f.setWidth 32
  | .wFinish => 0x60000000#32
  | .rInit w bytes => 0x80000000#32 ||| w.setWidth 32 <<< 22 ||| BitVec.ofNat 32 bytes.length
  | .rNext => 0x90000000#32

/-- The payload of a command (30_encoding R73 to R80). -/
def encodePayload : Instr → List Word
  | .wNew | .wBit _ | .wFinish | .rNext => []
  | .wInt _ value => [value.extractLsb' 32 32, value.extractLsb' 0 32]
  | .wBytes bytes => packWords bytes
  | .wStr _ text => packWords text
  | .rInit _ bytes => packWords bytes

/-- The transaction that spells a command (30_encoding R70). -/
def encode (i : Instr) : Transaction := ⟨encodeHeader i, encodePayload i⟩

/-- W_FINISH's DATA carried as words: the byte count, then the packed bytes (30_encoding R87). R87 does not say how a
count of 2^32 or more is carried in its one word; here it is taken modulo 2^32 (DESIGN CHOICE, log entry 20). -/
def finishWords (data : List Byte) : List Word := BitVec.ofNat 32 data.length :: packWords data

/-! ### A word of the opcode table -/

/-- Word k of an instruction whose bits are w: bit 0 of w is bit 0 of the header, and each payload word's bits
count on from the word before. -/
def tableWord (w k : Nat) : Word := BitVec.ofNat 32 (w >>> (32 * k))

/-- The transaction of an instruction whose low `nbits` bits are w: the payload words that `nbits` holds, and
zero words up to what the header calls for (log entry 9). -/
def tableTransaction (nbits w : Nat) : Transaction :=
  let bits := w % 2 ^ nbits
  let header := tableWord bits 0
  let count := max (payloadWords header) ((nbits + 31) / 32 - 1)
  ⟨header, (List.range count).map (fun k => tableWord bits (k + 1))⟩

/-- What the decoder reads from an instruction whose low `nbits` bits are w. -/
def decodeTableWord (nbits w : Nat) : Option Instr :=
  match decode (tableTransaction nbits w) with
  | .ok i => some i
  | .error _ => none

end Sys2Proof
end

