-- ==== Sys2Proof/Machine/Operands.lean ====
section
/-! DEFINITION. Values, bit streams and the helper functions of 00_scope R9 to R14, and the bit sequence each
writer command's operands stand for. -/

namespace Sys2Proof.Machine

/-- `ceil8(x) = (x + 7) div 8` (00_scope R11). -/
def ceil8 (x : Nat) : Nat := (x + 7) / 8

/-- `Bit(bs, p)`: bit `7 - (p mod 8)` of byte `p div 8` (00_scope R10). R10 defines it for `p < 8 * len(bs)`;
beyond, this function is false (log entry 12). -/
def bitAt (bs : List Byte) (p : Nat) : Bool := (bs.getD (p / 8) 0#8).getLsbD (7 - p % 8)

/-- `BitsOf(v, w)`: the low w bits of v, most significant first (00_scope R14). -/
def bitsOf (v : Nat) : Nat → List Bool
  | 0 => []
  | w + 1 => v.testBit w :: bitsOf v w

/-- `BytesToBits(bs)` (00_scope R14). -/
def bytesToBits (bs : List Byte) : List Bool := bs.flatMap (fun b => bitsOf b.toNat 8)

/-- The byte whose value bit `7 - j` is element `8 * k + j` of a bit sequence, 0 past its end. -/
def packByte (bits : List Bool) (k : Nat) : Byte :=
  BitVec.ofNat 8 (((List.range 8).map (fun j => (bits.getD (8 * k + j) false).toNat <<< (7 - j))).sum)

/-- `Pack(S)`: the bits most significant first, zero-padded to a whole byte (00_scope R14). -/
def pack (bits : List Bool) : List Byte := (List.range (ceil8 bits.length)).map (packByte bits)

/-- `FieldAt(bs, p, w)`: the w-bit value whose most significant bit is at position p (00_scope R14). R14 gives it for
`p + w <= 8 * len(bs)`; bits beyond read as `bitAt` does (DESIGN CHOICE, log entry 12). -/
def fieldAt (bs : List Byte) (p w : Nat) : Nat :=
  ((List.range w).map (fun i => (bitAt bs (p + i)).toNat <<< (w - 1 - i))).sum

/-- `Pad20(t, F)`: t and then spaces up to F bytes (00_scope R14). R14 gives it for `len(t) <= F`; a longer text is
answered as it is (DESIGN CHOICE, log entry 12). -/
def pad20 (text : List Byte) (f : Nat) : List Byte := text ++ List.replicate (f - text.length) 0x20#8

/-- `DecodeAll(bs, W)` (41_bitfieldreader R133): the fields of width W, each in a 32-bit word. R133 gives it for W
from 1 to 32; for width 0 it is the empty list, since Lean divides by 0 to 0, and a wider field is cut to its low 32
bits (DESIGN CHOICE, log entry 12). -/
def decodeAll (bs : List Byte) (w : Nat) : List Word :=
  (List.range (8 * bs.length / w)).map (fun i => BitVec.ofNat 32 (fieldAt bs (i * w) w))

/-- `mask_w(v)` on the 64-bit operand of W_INT (00_scope R11). -/
def maskValue (w : Nat) (value : BitVec 64) : BitVec 64 := BitVec.ofNat 64 (value.toNat % 2 ^ w)

/-- The k low bytes of a 64-bit value, most significant first (40_bitwriter R107). R107 uses k from 1 to 8; further
bytes are zero (DESIGN CHOICE, log entry 12). -/
def lowBytes (value : BitVec 64) : Nat → List Byte
  | 0 => []
  | k + 1 => value.extractLsb' (8 * k) 8 :: lowBytes value k

end Sys2Proof.Machine

namespace Sys2Proof

/-- The bit sequence a command appends when its status is OK (40_bitwriter R103, R104, R106, R108). -/
def Instr.appends : Instr → List Bool
  | .wBit b => [b]
  | .wInt w value => Machine.bitsOf value.toNat w.toNat
  | .wBytes bytes => Machine.bytesToBits bytes
  | .wStr f text => Machine.bytesToBits (Machine.pad20 text f.toNat)
  | .wNew | .wFinish | .rInit _ _ | .rNext => []

end Sys2Proof
end

