-- ==== Sys2Proof/Machine/State.lean ====
section
/-! DEFINITION. All the state of the machine (10_state), as plain data: the registers of every writer and reader
instance, the responses, and what the host has still to do, which the step reads. -/

namespace Sys2Proof.Machine

/-- WPHASE (10_state R21, R29); `Open` is spelled `opened`, `open` being a word of Lean's. -/
inductive WPhase where
  | opened | finished
  deriving DecidableEq, Repr

/-- The one-bit code of WPHASE (10_state R21). -/
def WPhase.code : WPhase → BitVec 1
  | .opened => 0#1
  | .finished => 1#1

/-- The registers of one writer instance (10_state R21). -/
structure Writer where
  /-- WPHASE. -/
  phase : WPhase
  /-- BUF. -/
  buf : List Byte
  /-- BITLEN; its width depends on a parameter, so its range is an invariant (log entry 3). -/
  bitlen : Nat
  deriving DecidableEq, Repr

/-- A writer right after reset (10_state R33). -/
def Writer.reset : Writer := ⟨.opened, [], 0⟩

/-- RPHASE (10_state R25, R30); the code 3 is never held. -/
inductive RPhase where
  | idle | active | exhausted
  deriving DecidableEq, Repr

/-- The two-bit code of RPHASE (10_state R25). -/
def RPhase.code : RPhase → BitVec 2
  | .idle => 0#2
  | .active => 1#2
  | .exhausted => 2#2

/-- The registers of one reader instance (10_state R25). -/
structure Reader where
  /-- RPHASE. -/
  phase : RPhase
  /-- SRC. -/
  src : List Byte
  /-- FW. -/
  fw : BitVec 6
  /-- RIDX; its width depends on a parameter, so its range is an invariant (log entry 3). -/
  ridx : Nat
  /-- ACC, ACC_BITS = 40 wide (decision D13). -/
  acc : BitVec 40
  /-- HELD. -/
  held : BitVec 6
  deriving DecidableEq, Repr

/-- A reader right after reset (10_state R33). -/
def Reader.reset : Reader := ⟨.idle, [], 0#6, 0, 0#40, 0#6⟩

/-- The status codes (60_exceptions R151). -/
inductive Status where
  | ok | done | illegalCommand | invalidFieldWidth | fieldOverflow | writerFinished | readerIdle | capacityExceeded
  deriving DecidableEq, Repr

/-- The four-bit code of a status (60_exceptions R151). -/
def Status.code : Status → BitVec 4
  | .ok => 0#4
  | .done => 1#4
  | .illegalCommand => 2#4
  | .invalidFieldWidth => 3#4
  | .fieldOverflow => 4#4
  | .writerFinished => 5#4
  | .readerIdle => 6#4
  | .capacityExceeded => 7#4

/-- Whether a status is an error; OK and DONE are not (60_exceptions R151, R158). -/
def Status.isError : Status → Bool
  | .ok | .done => false
  | .illegalCommand | .invalidFieldWidth | .fieldOverflow | .writerFinished | .readerIdle | .capacityExceeded => true

/-- The DATA of a response (30_encoding R86). -/
inductive Data where
  /-- No data. -/
  | empty
  /-- The byte sequence that W_FINISH hands out. -/
  | bytes (bs : List Byte)
  /-- The 32-bit word that R_NEXT returns. -/
  | word (w : Word)
  deriving DecidableEq, Repr

/-- One response (STATUS, DATA) (30_encoding R86). -/
structure Response where
  status : Status
  data : Data
  deriving DecidableEq, Repr

/-- An instance's command port, which alone identifies the instance (30_encoding R71, 60_exceptions R168). -/
inductive Port where
  | writer (k : Nat)
  | reader (k : Nat)
  deriving DecidableEq, Repr

/-- What a reset is applied to: an engine instance or all of them (70_reset R180). -/
inductive ResetTarget where
  | instanceAt (p : Port)
  | all
  deriving DecidableEq, Repr

/-- What happens next at the machine's edge (log entry 4). -/
inductive Event where
  /-- The host delivers a transaction, whole, to a port (30_encoding R70). -/
  | deliver (p : Port) (t : Transaction)
  /-- The engine behind a port carries out its oldest unanswered command (20_memory R58). -/
  | serve (p : Port)
  /-- The host resets an instance or all of them (70_reset R180). -/
  | reset (target : ResetTarget)
  deriving DecidableEq, Repr

/-- The OPEN capacities of 00_scope R8, fixed for a machine (log entry 1). -/
structure Params where
  /-- WBUF_BYTES. -/
  wbufBytes : Nat
  /-- RBUF_BYTES. -/
  rbufBytes : Nat
  deriving DecidableEq, Repr

/-- The whole machine. `writers` and `readers` are the engines' registers (10_state R31); the other fields are the
model's own (log entries 1, 4 to 7). -/
structure State where
  /-- The capacities; no step changes them. -/
  params : Params
  /-- One entry per writer instance. -/
  writers : List Writer
  /-- One entry per reader instance. -/
  readers : List Reader
  /-- The external events still to come, oldest first. -/
  agenda : List Event
  /-- The commands delivered and not yet answered, oldest first. -/
  inflight : List (Port × Transaction)
  /-- The port whose command is being carried out. -/
  serving : Port
  /-- The responses produced so far, oldest first, each with its port. -/
  responses : List (Port × Response)
  deriving DecidableEq, Repr

/-- Why the machine stops. The hardware itself never does (60_exceptions R150): its errors are responses. -/
inductive Fault where
  /-- An event or a command is at the port of an instance the machine does not have (60_exceptions R168). Raised by
  delivering, by carrying out a command and by a reset. Safe: the model stops where no hardware exists. -/
  | noSuchPort
  deriving DecidableEq, Repr

/-- Why an instruction has no meaning here. -/
inductive Refusal where
  /-- The instruction has no meaning yet; raised by no arm of `exec` (every command has its meaning). Safe. -/
  | notModelled (mnemonic : String)
  deriving DecidableEq, Repr

/-- The machine right after reset: every register as 10_state R33 says; the model's own fields as log entries 1, 2
and 4 to 7 say. -/
def State.reset : State where
  params := ⟨Config.wbufBytes, Config.rbufBytes⟩
  writers := List.replicate Config.nWriters Writer.reset
  readers := List.replicate Config.nReaders Reader.reset
  agenda := []
  inflight := []
  serving := .writer 0
  responses := []

end Sys2Proof.Machine
end

