-- ==== Sys2Proof/Machine/Flags.lean ====
section
/-! DEFINITION. The hardware has no flags (10_state R20); what a command reports is its STATUS. This file holds the
checks that decide it, one per cause (60_exceptions R153, R154, R157): `none` where the check passes. -/

namespace Sys2Proof.Machine

/-- `Fits(k)`: k more bits stay within `cap` bytes (40_bitwriter R101). -/
def Writer.fits (cap k : Nat) (w : Writer) : Bool := decide (ceil8 (w.bitlen + k) ≤ cap)

/-- W_INT's operand check (60_exceptions R153). -/
def intWidthCheck (w : BitVec 7) : Option Status :=
  if w.toNat < Config.intWidthMin ∨ Config.intWidthMax < w.toNat then some .invalidFieldWidth else none

/-- W_STR's operand check (60_exceptions R154). -/
def textLengthCheck (f : BitVec 12) (text : List Byte) : Option Status :=
  if f.toNat < text.length then some .fieldOverflow else none

/-- R_INIT's operand check (60_exceptions R153). -/
def readerWidthCheck (w : BitVec 6) : Option Status :=
  if w.toNat < Config.fwMin ∨ Config.fwMax < w.toNat then some .invalidFieldWidth else none

/-- R_INIT's capacity check (60_exceptions R157). -/
def sourceLengthCheck (cap : Nat) (bytes : List Byte) : Option Status :=
  if cap < bytes.length then some .capacityExceeded else none

end Sys2Proof.Machine
end

