-- ==== Sys2Proof/Machine/Ops.lean ====
section
/-! DEFINITION. The named operations over the engines' storage and over the machine: the primitives PutBit and
PutBytes (40_bitwriter R103, R106), the reader's shift and extraction (41_bitfieldreader R132), answering a command,
and what the host can do from outside (delivery and reset).

Taking an exception and returning from one do not exist on this hardware (60_exceptions R161, R162): an error is a
response with no state change (R159), built by `Response.only`. -/

namespace Sys2Proof.Machine

/-! ### Responses -/

/-- A response with a status and no data (30_encoding R86). -/
def Response.only (st : Status) : Response := ⟨st, .empty⟩

/-! ### The writer's primitives -/

/-- `BUF[len(BUF)-1] <- BUF[len(BUF)-1] | b` (00_scope R13); an empty sequence has no last byte and stays
(log entry 12). -/
def orLast (b : Byte) : List Byte → List Byte
  | [] => []
  | [x] => [x ||| b]
  | x :: y :: rest => x :: orLast b (y :: rest)

/-- `PutBit(b)` (40_bitwriter R103). -/
def Writer.putBit (b : Bool) (w : Writer) : Writer :=
  let off := w.bitlen % 8
  let buf := if off = 0 then w.buf ++ [0x00#8] else w.buf
  { w with buf := orLast ((if b then 1#8 else 0#8) <<< (7 - off)) buf, bitlen := w.bitlen + 1 }

/-- PutBit of each bit in turn. -/
def Writer.putBits (bits : List Bool) (w : Writer) : Writer := bits.foldl (fun w b => w.putBit b) w

/-- The loop of W_INT: `PutBit(value[i])` for i from w-1 down to 0 (40_bitwriter R104). -/
def Writer.putInt (value : BitVec 64) : Nat → Writer → Writer
  | 0, wr => wr
  | i + 1, wr => Writer.putInt value i (wr.putBit (value.getLsbD i))

/-- One byte of PutBytes at an offset: its top `8 - off` bits into the last byte, its bottom `off` bits into a new
one (40_bitwriter R106). -/
def splitByte (off : Nat) (buf : List Byte) (b : Byte) : List Byte := orLast (b >>> off) buf ++ [b <<< (8 - off)]

/-- `PutBytes(bytes)` (40_bitwriter R106). -/
def Writer.putBytes (bytes : List Byte) (w : Writer) : Writer :=
  let off := w.bitlen % 8
  let buf := if off = 0 then w.buf ++ bytes else bytes.foldl (splitByte off) w.buf
  { w with buf := buf, bitlen := w.bitlen + 8 * bytes.length }

/-- The k highest bytes of a 64-bit value, most significant first. -/
def topBytes (a : BitVec 64) (k : Nat) : List Byte := (List.range k).map (fun j => a.extractLsb' (56 - 8 * j) 8)

/-- W_INT's fast path (40_bitwriter R105): whole bytes by PutBytes, then the residual bits by PutBit. The command
itself uses `putInt`; that the two agree is a statement. R105 gives it for w from 1 to 64; above, the shift
`64 - w` is 0 (DESIGN CHOICE, log entry 12). -/
def Writer.putIntFast (value : BitVec 64) (w : Nat) (wr : Writer) : Writer :=
  let a := value <<< (64 - w)
  let k := w / 8
  let r := w % 8
  ((List.range r).map (fun j => a.getLsbD (63 - 8 * k - j))).foldl (fun v b => v.putBit b) (wr.putBytes (topBytes a k))

/-- `MemRead(a, n)`: bytes a to a+n-1 of BUF (20_memory R41). R41 gives it for `a + n <= len(BUF)`; beyond, it ends
with BUF (DESIGN CHOICE, log entry 12). -/
def Writer.memRead (w : Writer) (a n : Nat) : List Byte := (w.buf.drop a).take n

/-- The common order of the appending commands (40_bitwriter R100): phase, operands, capacity for k more bits, then
the effect. -/
def Writer.append (cap : Nat) (bad : Option Status) (k : Nat) (effect : Writer → Writer) (w : Writer) :
    Writer × Response :=
  match w.phase with
  | .finished => (w, Response.only .writerFinished)
  | .opened =>
    match bad with
    | some st => (w, Response.only st)
    | none => if w.fits cap k then (effect w, Response.only .ok) else (w, Response.only .capacityExceeded)

/-! ### The reader's primitives -/

/-- `BIT_CURSOR = 8 * RIDX - HELD` (10_state R27); 0 where HELD is the larger, which no run reaches (log entry 12). -/
def Reader.bitCursor (r : Reader) : Nat := 8 * r.ridx - r.held.toNat

/-- Shifting one source byte in (41_bitfieldreader R132). -/
def Reader.shiftIn (b : Byte) (r : Reader) : Reader :=
  { r with acc := r.acc <<< 8 ||| b.setWidth 40, held := r.held + 8#6, ridx := r.ridx + 1 }

/-- Extracting one field where `HELD >= FW` (41_bitfieldreader R132). -/
def Reader.extract (r : Reader) : Reader × Response :=
  let sh := r.held - r.fw
  ({ r with acc := BitVec.ofNat 40 (r.acc.toNat % 2 ^ sh.toNat), held := sh },
    ⟨.ok, .word ((r.acc >>> sh.toNat).setWidth 32)⟩)

/-- The end of a pass: fewer than FW bits remain (41_bitfieldreader R132). -/
def Reader.exhaust (r : Reader) : Reader × Response := ({ r with phase := .exhausted }, Response.only .done)

/-- The loop of R_NEXT, over the source bytes not yet shifted in (41_bitfieldreader R132). -/
def Reader.pull : List Byte → Reader → Reader × Response
  | [], r => if r.fw.toNat ≤ r.held.toNat then r.extract else r.exhaust
  | b :: rest, r => if r.fw.toNat ≤ r.held.toNat then r.extract else Reader.pull rest (r.shiftIn b)

/-- The registers R_INIT leaves (41_bitfieldreader R131). -/
def Reader.start (w : BitVec 6) (bytes : List Byte) : Reader := ⟨.active, bytes, w, 0, 0#40, 0#6⟩

/-! ### Answering a command -/

/-- Whether the machine has the instance behind a port. -/
def State.hasPort (s : State) : Port → Bool
  | .writer k => decide (k < s.writers.length)
  | .reader k => decide (k < s.readers.length)

/-- Writer k's registers written. -/
def State.setWriter (k : Nat) (w : Writer) (s : State) : State := { s with writers := s.writers.set k w }

/-- Reader k's registers written. -/
def State.setReader (k : Nat) (r : Reader) (s : State) : State := { s with readers := s.readers.set k r }

/-- The response to the command being carried out, given at its port (30_encoding R86). -/
def State.respond (r : Response) (s : State) : State := { s with responses := s.responses ++ [(s.serving, r)] }

/-- A command that is answered and changes no register (60_exceptions R159). -/
def State.answer (r : Response) (s : State) : Host.Outcome State Fault Refusal :=
  if s.hasPort s.serving then .next (s.respond r) else .fault .noSuchPort

/-- A malformed transaction (60_exceptions R152). -/
def State.illegal (s : State) : Host.Outcome State Fault Refusal := s.answer (Response.only .illegalCommand)

/-- A writer command carried out by the instance behind the port; at a reader's port it is ILLEGAL_COMMAND
(30_encoding R71). -/
def State.onWriter (f : Writer → Writer × Response) (s : State) : Host.Outcome State Fault Refusal :=
  match s.serving with
  | .reader _ => s.illegal
  | .writer k =>
    match s.writers[k]? with
    | none => .fault .noSuchPort
    | some w => .next ((s.setWriter k (f w).1).respond (f w).2)

/-- A reader command carried out by the instance behind the port; at a writer's port it is ILLEGAL_COMMAND
(30_encoding R71). -/
def State.onReader (f : Reader → Reader × Response) (s : State) : Host.Outcome State Fault Refusal :=
  match s.serving with
  | .writer _ => s.illegal
  | .reader k =>
    match s.readers[k]? with
    | none => .fault .noSuchPort
    | some r => .next ((s.setReader k (f r).1).respond (f r).2)

/-! ### What comes from outside -/

/-- The oldest command waiting at a port, and the others in their order (20_memory R58). -/
def takeFirst (p : Port) : List (Port × Transaction) → Option (Transaction × List (Port × Transaction))
  | [] => none
  | (q, t) :: rest =>
    if q = p then some (t, rest)
    else
      match takeFirst p rest with
      | none => none
      | some (u, left) => some (u, (q, t) :: left)

/-- The engine behind port p takes its oldest command; `none` where it has none. -/
def State.takeCommand (p : Port) (s : State) : Option (Transaction × State) :=
  match takeFirst p s.inflight with
  | none => none
  | some (t, left) => some (t, { s with inflight := left, serving := p })

/-- The host delivers a transaction to a port (30_encoding R70). -/
def State.deliver (p : Port) (t : Transaction) (s : State) : Host.Outcome State Fault Refusal :=
  if s.hasPort p then .next { s with inflight := s.inflight ++ [(p, t)] } else .fault .noSuchPort

/-- The commands in flight that a reset of port p leaves: those at other ports (70_reset R180). -/
def otherPorts (p : Port) (l : List (Port × Transaction)) : List (Port × Transaction) :=
  l.filter (fun x => !decide (x.1 = p))

/-- Reset of an instance or of all (70_reset R180): the registers take their reset values, and the commands not yet
answered are discarded with no response. -/
def State.applyReset (target : ResetTarget) (s : State) : Host.Outcome State Fault Refusal :=
  match target with
  | .all =>
    .next { s with
      writers := s.writers.map (fun _ => Writer.reset), readers := s.readers.map (fun _ => Reader.reset), inflight := [] }
  | .instanceAt p =>
    if s.hasPort p then
      match p with
      | .writer k => .next { s.setWriter k Writer.reset with inflight := otherPorts p s.inflight }
      | .reader k => .next { s.setReader k Reader.reset with inflight := otherPorts p s.inflight }
    else .fault .noSuchPort

/-- The port a header's command goes to when nothing else selects one: instance 0 of its kind, the reader's for
opcodes 0x8 to 0xF (log entry 9). -/
def defaultPort (h : Word) : Port := if h.getLsbD 31 then .reader 0 else .writer 0

/-- A transaction placed where the next step carries it out: first in flight at its port, and that port served
next (log entry 9). -/
def State.placeCommand (t : Transaction) (s : State) : State :=
  { s with
    inflight := (defaultPort t.header, t) :: s.inflight, agenda := .serve (defaultPort t.header) :: s.agenda }

end Sys2Proof.Machine
end

