-- ==== Sys2Proof/Machine/Reader.lean ====
section
/-! DEFINITION. The two reader commands (41_bitfieldreader R131, R132): what each does to one reader instance
(`Reader.cmd…`), and its meaning in the machine (`exec…`). -/

namespace Sys2Proof.Machine

/-- R_INIT on one reader, in any phase: the width check, then the capacity check, then the pass starts
(41_bitfieldreader R130, R131). -/
def Reader.cmdInit (cap : Nat) (w : BitVec 6) (bytes : List Byte) (r : Reader) : Reader × Response :=
  match readerWidthCheck w with
  | some st => (r, Response.only st)
  | none =>
    match sourceLengthCheck cap bytes with
    | some st => (r, Response.only st)
    | none => (Reader.start w bytes, Response.only .ok)

/-- R_NEXT on one reader (41_bitfieldreader R132). -/
def Reader.cmdNext (r : Reader) : Reader × Response :=
  match r.phase with
  | .idle => (r, Response.only .readerIdle)
  | .exhausted => (r, Response.only .done)
  | .active => Reader.pull (r.src.drop r.ridx) r

/-- R_INIT (41_bitfieldreader R131). -/
def execRInit (w : BitVec 6) (bytes : List Byte) (s : State) : Host.Outcome State Fault Refusal :=
  s.onReader (Reader.cmdInit s.params.rbufBytes w bytes)

/-- R_NEXT (41_bitfieldreader R132). -/
def execRNext (s : State) : Host.Outcome State Fault Refusal := s.onReader Reader.cmdNext

end Sys2Proof.Machine
end

