-- ==== Sys2Proof/Machine/Writer.lean ====
section
/-! DEFINITION. The six writer commands (40_bitwriter R102 to R109): what each does to one writer instance
(`Writer.cmd…`), and its meaning in the machine (`exec…`). -/

namespace Sys2Proof.Machine

/-- W_NEW on one writer, in either phase (40_bitwriter R102). -/
def Writer.cmdNew (w : Writer) : Writer × Response :=
  ({ w with phase := .opened, buf := [], bitlen := 0 }, Response.only .ok)

/-- W_BIT on one writer (40_bitwriter R103). -/
def Writer.cmdBit (cap : Nat) (b : Bool) (w : Writer) : Writer × Response :=
  w.append cap none 1 (fun w => w.putBit b)

/-- W_INT on one writer (40_bitwriter R104). -/
def Writer.cmdInt (cap : Nat) (width : BitVec 7) (value : BitVec 64) (w : Writer) : Writer × Response :=
  w.append cap (intWidthCheck width) width.toNat (Writer.putInt value width.toNat)

/-- W_BYTES on one writer (40_bitwriter R106). -/
def Writer.cmdBytes (cap : Nat) (bytes : List Byte) (w : Writer) : Writer × Response :=
  w.append cap none (8 * bytes.length) (fun w => w.putBytes bytes)

/-- W_STR on one writer (40_bitwriter R108). -/
def Writer.cmdStr (cap : Nat) (f : BitVec 12) (text : List Byte) (w : Writer) : Writer × Response :=
  w.append cap (textLengthCheck f text) (8 * f.toNat) (fun w => w.putBytes (pad20 text f.toNat))

/-- W_FINISH on one writer (40_bitwriter R109). -/
def Writer.cmdFinish (w : Writer) : Writer × Response :=
  match w.phase with
  | .finished => (w, Response.only .writerFinished)
  | .opened => ({ w with phase := .finished, buf := [], bitlen := 0 }, ⟨.ok, .bytes (w.memRead 0 w.buf.length)⟩)

/-- W_NEW (40_bitwriter R102). -/
def execWNew (s : State) : Host.Outcome State Fault Refusal := s.onWriter Writer.cmdNew

/-- W_BIT (40_bitwriter R103). -/
def execWBit (b : Bool) (s : State) : Host.Outcome State Fault Refusal :=
  s.onWriter (Writer.cmdBit s.params.wbufBytes b)

/-- W_INT (40_bitwriter R104, R105). -/
def execWInt (w : BitVec 7) (value : BitVec 64) (s : State) : Host.Outcome State Fault Refusal :=
  s.onWriter (Writer.cmdInt s.params.wbufBytes w value)

/-- W_BYTES (40_bitwriter R106). -/
def execWBytes (bytes : List Byte) (s : State) : Host.Outcome State Fault Refusal :=
  s.onWriter (Writer.cmdBytes s.params.wbufBytes bytes)

/-- W_STR (40_bitwriter R108). -/
def execWStr (f : BitVec 12) (text : List Byte) (s : State) : Host.Outcome State Fault Refusal :=
  s.onWriter (Writer.cmdStr s.params.wbufBytes f text)

/-- W_FINISH (40_bitwriter R109). -/
def execWFinish (s : State) : Host.Outcome State Fault Refusal := s.onWriter Writer.cmdFinish

end Sys2Proof.Machine
end

