-- ==== Sys2Proof/Machine/Dispatch.lean ====
section
/-! DEFINITION. The dispatch: one arm per command of the opcode map (30_encoding R72). -/

namespace Sys2Proof.Machine

/-- The meaning of a command at the port being served. -/
def exec (i : Instr) (s : State) : Host.Outcome State Fault Refusal :=
  match i with
  | .wNew => Sys2Proof.Machine.execWNew s
  | .wBit b => Sys2Proof.Machine.execWBit b s
  | .wInt w value => Sys2Proof.Machine.execWInt w value s
  | .wBytes bytes => Sys2Proof.Machine.execWBytes bytes s
  | .wStr f text => Sys2Proof.Machine.execWStr f text s
  | .wFinish => Sys2Proof.Machine.execWFinish s
  | .rInit w bytes => Sys2Proof.Machine.execRInit w bytes s
  | .rNext => Sys2Proof.Machine.execRNext s

end Sys2Proof.Machine
end

