-- ==== Sys2Proof/Machine/Step.lean ====
section
/-! DEFINITION. One step of the machine: the next event of the agenda. A served port decodes its oldest unanswered
command and carries it out whole (20_memory R53, R58). With nothing on the agenda the oldest command in flight is
served, and with none the engines wait (60_exceptions R170, log entry 8). -/

namespace Sys2Proof.Machine

/-- The engine behind port p carries out its oldest command, if it has one. -/
def serve (p : Port) (s : State) : Host.Outcome State Fault Refusal :=
  match s.takeCommand p with
  | none => .next s
  | some (t, s') =>
    match decode t with
    | .ok i => exec i s'
    | .error _ => s'.illegal

/-- One step. -/
def step (s : State) : Host.Outcome State Fault Refusal :=
  match s.agenda with
  | [] =>
    match s.inflight with
    | [] => .next s
    | (p, _) :: _ => serve p s
  | .deliver p t :: rest => State.deliver p t { s with agenda := rest }
  | .serve p :: rest => serve p { s with agenda := rest }
  | .reset target :: rest => State.applyReset target { s with agenda := rest }

/-- The state with the instruction whose low `nbits` bits are w placed where the next step carries it out: in
flight at its port, that port served next (log entry 9). -/
def State.withFetchWord (s : State) (nbits w : Nat) : State := s.placeCommand (tableTransaction nbits w)

end Sys2Proof.Machine
end

