-- ==== Sys2Proof/Machine/Assembler.lean ====
section
/-! DEFINITION. What a host writes: the assembler syntax (30_encoding R88), the pseudo-commands and their
expansions (R89, R90), and the host's `decode_all` loop. Nothing here is read by the step. -/

namespace Sys2Proof.Machine

/-- A line of assembler with its operands as numbers, before the checks of 30_encoding R88: the eight commands,
then the pseudo-commands `wbits` and `decode_all` (R89). -/
inductive AsmLine where
  | wnew
  | wbit (b : Nat)
  | wint (value w : Nat)
  | wbytes (bytes : List Nat)
  | wstr (text : List Nat) (f : Nat)
  | wfinish
  | rinit (w : Nat) (bytes : List Nat)
  | rnext
  | wbits (bits : List Bool)
  | decodeAll (w : Nat) (bytes : List Nat)
  deriving DecidableEq, Repr

/-- Numbers as bytes; `none` where one is 256 or more (00_scope R12). -/
def bytesOfNats : List Nat → Option (List Byte)
  | [] => some []
  | n :: rest =>
    if n < 256 then (bytesOfNats rest).map (fun bs => BitVec.ofNat 8 n :: bs) else none

/-- The command a line stands for, rejecting a value that does not fit its field (30_encoding R88). The widths 0,
above 64 and above 32 and L > F are not rejected. A pseudo-command is no command. -/
def assemble : AsmLine → Option Instr
  | .wnew => some .wNew
  | .wbit b => if b ≤ 1 then some (.wBit (decide (b = 1))) else none
  | .wint value w => if value < 2 ^ 64 ∧ w ≤ 127 then some (.wInt (BitVec.ofNat 7 w) (BitVec.ofNat 64 value)) else none
  | .wbytes bytes => if bytes.length ≤ Config.wbytesNMax then (bytesOfNats bytes).map Instr.wBytes else none
  | .wstr text f =>
    if text.length ≤ Config.wstrMax ∧ f ≤ Config.wstrMax then
      (bytesOfNats text).map (Instr.wStr (BitVec.ofNat 12 f))
    else none
  | .wfinish => some .wFinish
  | .rinit w bytes =>
    if w ≤ 63 ∧ bytes.length ≤ Config.rinitNMax then (bytesOfNats bytes).map (Instr.rInit (BitVec.ofNat 6 w)) else none
  | .rnext => some .rNext
  | .wbits _ => none
  | .decodeAll _ _ => none

/-- A sequence cut into pieces of at most m elements; the first argument bounds their number. -/
def pieces (m : Nat) : Nat → List Byte → List (List Byte)
  | 0, _ => []
  | _ + 1, [] => []
  | n + 1, b :: bs => (b :: bs).take m :: pieces m n ((b :: bs).drop m)

/-- A span of any length as W_BYTES commands (30_encoding R89, R90). -/
def splitBytes (bytes : List Byte) : List Instr :=
  if bytes.length ≤ Config.wbytesNMax then [.wBytes bytes]
  else (pieces Config.wbytesNMax bytes.length bytes).map Instr.wBytes

/-- `decode_all W, [bytes]` as a fixed sequence: R_INIT and then R_NEXT up to the first DONE, which is the
(8n div W + 1)-th (30_encoding R89, 41_bitfieldreader R133; DEDUCED, log entry 14). `expand` uses it for W from 1 to
32; for width 0 it has one R_NEXT (DESIGN CHOICE, log entry 12). -/
def decodeAllCommands (w : BitVec 6) (bytes : List Byte) : List Instr :=
  .rInit w bytes :: List.replicate (8 * bytes.length / w.toNat + 1) .rNext

/-- A line with the pseudo-commands expanded (30_encoding R89). A `decode_all` whose R_INIT fails at every reader or has
no spelling is refused (DESIGN CHOICE, log entry 14). -/
def expand : AsmLine → Option (List Instr)
  | .wbits bits => some (bits.map Instr.wBit)
  | .decodeAll w bytes =>
    if Config.fwMin ≤ w ∧ w ≤ Config.fwMax ∧ bytes.length ≤ Config.rinitNMax then
      (bytesOfNats bytes).map (decodeAllCommands (BitVec.ofNat 6 w))
    else none
  | .wbytes bytes => (bytesOfNats bytes).map splitBytes
  | .wstr text f =>
    if text.length ≤ Config.wstrMax ∧ f ≤ Config.wstrMax then (assemble (.wstr text f)).map (fun i => [i])
    else if text.length ≤ f then (bytesOfNats text).map (fun bs => splitBytes (pad20 bs f))
    else none
  | .wnew => some [.wNew]
  | .wbit b => (assemble (.wbit b)).map (fun i => [i])
  | .wint value w => (assemble (.wint value w)).map (fun i => [i])
  | .wfinish => some [.wFinish]
  | .rinit w bytes => (assemble (.rinit w bytes)).map (fun i => [i])
  | .rnext => some [.rNext]

/-- The other spelling of `wint value, 8k`, for k from 1 to 8 (30_encoding R89). -/
def intAsBytes (value : BitVec 64) (k : Nat) : Instr := .wBytes (lowBytes value k)

/-! ### The text of a line (30_encoding R88; spacing and escapes: log entry 15) -/

/-- The tokens of a line. -/
inductive AsmToken where
  | word (cs : List Char)
  | comma | lbracket | rbracket
  | quoted (cs : List Char)
  deriving DecidableEq, Repr

/-- A word being read, kept in reverse, becomes a token when it ends. -/
def endWord (cur : List Char) (toks : List AsmToken) : List AsmToken :=
  match cur with
  | [] => toks
  | _ :: _ => .word cur.reverse :: toks

/-- The tokens of a line; `cur` is the word or the quoted text being read, in reverse, and `inText` says which. -/
def lex (cur : List Char) (inText : Bool) : List Char → Option (List AsmToken)
  | [] => if inText then none else some (endWord cur [])
  | c :: cs =>
    if inText then
      if c = Char.ofNat 34 then (lex [] false cs).map (fun ts => .quoted cur.reverse :: ts) else lex (c :: cur) true cs
    else if c = Char.ofNat 34 then (lex [] true cs).map (endWord cur)
    else if c = ',' then (lex [] false cs).map (fun ts => endWord cur (.comma :: ts))
    else if c = '[' then (lex [] false cs).map (fun ts => endWord cur (.lbracket :: ts))
    else if c = ']' then (lex [] false cs).map (fun ts => endWord cur (.rbracket :: ts))
    else if c = ' ' then (lex [] false cs).map (endWord cur)
    else if c.isAlphanum || c = '_' then lex (c :: cur) false cs
    else none

/-- The value of a digit. -/
def digitValue (c : Char) : Option Nat :=
  let n := c.toNat
  if 48 ≤ n ∧ n ≤ 57 then some (n - 48)
  else if 97 ≤ n ∧ n ≤ 102 then some (n - 87)
  else if 65 ≤ n ∧ n ≤ 70 then some (n - 55)
  else none

/-- Digits in a base, after those already read. -/
def digitsFrom (base : Nat) (acc : Nat) : List Char → Option Nat
  | [] => some acc
  | c :: cs =>
    match digitValue c with
    | some d => if d < base then digitsFrom base (base * acc + d) cs else none
    | none => none

/-- A number: decimal, `0x` hexadecimal or `0b` binary (30_encoding R88). -/
def number : List Char → Option Nat
  | [] => none
  | '0' :: 'x' :: d :: ds => digitsFrom 16 0 (d :: ds)
  | '0' :: 'b' :: d :: ds => digitsFrom 2 0 (d :: ds)
  | d :: ds => digitsFrom 10 0 (d :: ds)

/-- The numbers of a list whose first item is still to come, and the tokens after its closing bracket. -/
def listItems : List AsmToken → Option (List Nat × List AsmToken)
  | .word d :: .rbracket :: rest => (number d).map (fun n => ([n], rest))
  | .word d :: .comma :: rest =>
    match number d, listItems rest with
    | some n, some (ns, left) => some (n :: ns, left)
    | _, _ => none
  | _ => none

/-- A byte list in brackets, and the tokens after it (30_encoding R88). -/
def byteList : List AsmToken → Option (List Nat × List AsmToken)
  | .lbracket :: .rbracket :: rest => some ([], rest)
  | .lbracket :: rest => listItems rest
  | _ => none

/-- Quoted text as its UTF-8 bytes (30_encoding R88). -/
def utf8Bytes (cs : List Char) : List Nat := cs.flatMap (fun c => (String.utf8EncodeChar c).map UInt8.toNat)

/-- The bits of a quoted string of 0 and 1 (30_encoding R89). -/
def bitString : List Char → Option (List Bool)
  | [] => some []
  | c :: cs =>
    if c = '0' then (bitString cs).map (fun bs => false :: bs)
    else if c = '1' then (bitString cs).map (fun bs => true :: bs)
    else none

/-- The operands of a line with the given mnemonic. -/
def parseTokens (mnemonic : List Char) (toks : List AsmToken) : Option AsmLine :=
  if mnemonic = "wnew".toList ∧ toks = [] then some .wnew
  else if mnemonic = "wfinish".toList ∧ toks = [] then some .wfinish
  else if mnemonic = "rnext".toList ∧ toks = [] then some .rnext
  else if mnemonic = "wbit".toList then
    match toks with
    | [.word b] => (number b).map AsmLine.wbit
    | _ => none
  else if mnemonic = "wint".toList then
    match toks with
    | [.word v, .comma, .word w] =>
      match number v, number w with
      | some v, some w => some (.wint v w)
      | _, _ => none
    | _ => none
  else if mnemonic = "wbytes".toList then
    match byteList toks with
    | some (bs, []) => some (.wbytes bs)
    | _ => none
  else if mnemonic = "wstr".toList then
    match toks with
    | [.quoted cs, .comma, .word f] => (number f).map (AsmLine.wstr (utf8Bytes cs))
    | _ =>
      match byteList toks with
      | some (bs, [.comma, .word f]) => (number f).map (AsmLine.wstr bs)
      | _ => none
  else if mnemonic = "rinit".toList then
    match toks with
    | .word w :: .comma :: rest =>
      match number w, byteList rest with
      | some w, some (bs, []) => some (.rinit w bs)
      | _, _ => none
    | _ => none
  else if mnemonic = "wbits".toList then
    match toks with
    | [.quoted cs] => (bitString cs).map AsmLine.wbits
    | _ => none
  else if mnemonic = "decode_all".toList then
    match toks with
    | .word w :: .comma :: rest =>
      match number w, byteList rest with
      | some w, some (bs, []) => some (.decodeAll w bs)
      | _, _ => none
    | _ => none
  else none

/-- A line of assembler text (30_encoding R88, R89). -/
def parseLine (text : List Char) : Option AsmLine :=
  match lex [] false text with
  | some (.word m :: toks) => parseTokens m toks
  | _ => none

/-! ### The host's decode_all loop -/

/-- R_NEXT repeated until a response is not OK, at most `fuel` times, with the words returned (30_encoding R89). The
rule's loop ends at DONE alone; that this one ends at READER_IDLE too is a DESIGN CHOICE (log entry 14). -/
def Reader.drain : Nat → Reader → Reader × List Word
  | 0, r => (r, [])
  | fuel + 1, r =>
    match r.cmdNext with
    | (r', ⟨.ok, .word v⟩) => ((Reader.drain fuel r').1, v :: (Reader.drain fuel r').2)
    | (r', _) => (r', [])

/-- `decode_all`: R_INIT, then R_NEXT until a response is not OK (30_encoding R89). After a failed R_INIT the R_NEXTs
run all the same, as R89 has it: they drain the pass that R_INIT left untouched (41_bitfieldreader R131), and at an
Idle reader the first one ends the loop (DESIGN CHOICE, log entry 14). The bound is taken from the source R_INIT
leaves, the old one where it failed; a pass of n bytes has at most 8n fields, so under `Reader.Inv` it is never what
ends the loop, and outside, with FW = 0, it is (log entry 12). -/
def Reader.decodeAllLoop (cap : Nat) (w : BitVec 6) (bytes : List Byte) (r : Reader) : Reader × List Word :=
  let r' := (r.cmdInit cap w bytes).1
  Reader.drain (8 * r'.src.length + 1) r'

end Sys2Proof.Machine
end

