-- ==== Sys2Proof/Safety.lean ====
section
/-! DEFINITION. The terms claims are made in: what a command's answer looks like, the invariants of 10_state, when a
transaction is malformed (60_exceptions R152) and which status a command has (R160), written from the spec's tables
and not from the decoder or the meanings, and runs of several commands. -/

namespace Sys2Proof.Machine

/-! ### Answers -/

/-- The command being carried out is at writer k, whose registers are w. -/
def State.ServesWriter (s : State) (k : Nat) (w : Writer) : Prop := s.serving = .writer k ∧ s.writers[k]? = some w

/-- The command being carried out is at reader k, whose registers are r. -/
def State.ServesReader (s : State) (k : Nat) (r : Reader) : Prop := s.serving = .reader k ∧ s.readers[k]? = some r

/-- s with writer k's registers and one more response, from writer k's port, and nothing else changed. -/
def State.writerResult (k : Nat) (w : Writer) (r : Response) (s : State) : State :=
  { s with writers := s.writers.set k w, responses := s.responses ++ [(.writer k, r)] }

/-- s with reader k's registers and one more response, from reader k's port, and nothing else changed. -/
def State.readerResult (k : Nat) (rd : Reader) (r : Response) (s : State) : State :=
  { s with readers := s.readers.set k rd, responses := s.responses ++ [(.reader k, r)] }

/-- The served command of port p and what is left in flight: the next step of s carries t out at p. -/
def State.WillServe (s : State) (p : Port) (t : Transaction) (left : List (Port × Transaction)) (rest : List Event) :
    Prop :=
  s.agenda = .serve p :: rest ∧ takeFirst p s.inflight = some (t, left)

/-- s with the next event and the served command taken, and one response with no data given at p. -/
def State.refusal (p : Port) (left : List (Port × Transaction)) (rest : List Event) (st : Status) (s : State) : State :=
  { s with agenda := rest, inflight := left, serving := p, responses := s.responses ++ [(p, ⟨st, .empty⟩)] }

/-! ### Invariants (10_state) -/

/-- What holds of every writer instance: R21's ranges, R22, and the zero tail of R23. -/
structure Writer.Inv (cap : Nat) (w : Writer) : Prop where
  /-- R22. -/
  length_eq : w.buf.length = ceil8 w.bitlen
  /-- R23: the tail padding is zero. -/
  tail_zero : ∀ p, w.bitlen ≤ p → p < 8 * w.buf.length → bitAt w.buf p = false
  /-- R21: `BITLEN <= 8 * WBUF_BYTES`. -/
  bitlen_le : w.bitlen ≤ 8 * cap
  /-- R109 with R155: a finished writer holds nothing. -/
  finished_empty : w.phase = .finished → w.buf = [] ∧ w.bitlen = 0

/-- What holds of every reader instance: R25's ranges and R26 to R28. -/
structure Reader.Inv (cap : Nat) (r : Reader) : Prop where
  /-- R25: `len(SRC) <= RBUF_BYTES`. -/
  src_le : r.src.length ≤ cap
  /-- R25: `RIDX <= len(SRC)`. -/
  ridx_le : r.ridx ≤ r.src.length
  /-- R27: BIT_CURSOR is a position. -/
  held_le : r.held.toNat ≤ 8 * r.ridx
  /-- R26. -/
  acc_lt : r.acc.toNat < 2 ^ r.held.toNat
  /-- R28. -/
  acc_eq : r.acc.toNat = fieldAt r.src (8 * r.ridx - r.held.toNat) r.held.toNat
  /-- R25: the width is legal in a pass. -/
  fw_range : r.phase ≠ .idle → Config.fwMin ≤ r.fw.toNat ∧ r.fw.toNat ≤ Config.fwMax
  /-- R26: `HELD <= FW + 7` in a pass. -/
  held_range : r.phase ≠ .idle → r.held.toNat ≤ r.fw.toNat + 7
  /-- R27: BIT_CURSOR is a whole number of fields. -/
  cursor_fields : r.phase ≠ .idle → r.fw.toNat ∣ r.bitCursor
  /-- R30, R132: an exhausted pass has shifted in all of SRC and holds less than a field. -/
  exhausted_short : r.phase = .exhausted → r.ridx = r.src.length ∧ r.held.toNat < r.fw.toNat
  /-- R30, R182: Idle is held only from reset on. -/
  idle_reset : r.phase = .idle → r = Reader.reset

/-- What holds of the whole machine. -/
structure State.Inv (s : State) : Prop where
  /-- 00_scope R8: `WBUF_BYTES >= 1`. -/
  wbuf_pos : 1 ≤ s.params.wbufBytes
  writers_inv : ∀ w ∈ s.writers, w.Inv s.params.wbufBytes
  readers_inv : ∀ r ∈ s.readers, r.Inv s.params.rbufBytes
  /-- Commands are only in flight at ports that exist. -/
  inflight_ports : ∀ x ∈ s.inflight, s.hasPort x.1 = true
  serving_port : s.hasPort s.serving = true

/-- An external event names only instances the machine has. -/
def State.EventOk (s : State) : Event → Prop
  | .deliver p _ => s.hasPort p = true
  | .serve _ => True
  | .reset .all => True
  | .reset (.instanceAt p) => s.hasPort p = true

/-! ### Malformed transactions (60_exceptions R152) -/

/-- The opcode as a number: `H[31:28]`. -/
def opNumber (t : Transaction) : Nat := t.header.toNat / 2 ^ 28

/-- The lowest reserved header bit below bit 28, by opcode; 28 where the format has none (30_encoding R82). -/
def firstReservedBit (op : Nat) : Nat :=
  if op = 1 ∨ op = 6 ∨ op = 9 then 0
  else if op = 2 then 1
  else if op = 3 then 7
  else if op = 4 ∨ op = 5 then 24
  else 28

/-- The span length a header announces: n, L or n (30_encoding R76 to R78). -/
def announcedSpan (t : Transaction) : Nat :=
  if opNumber t = 4 then t.header.toNat % 2 ^ 24
  else if opNumber t = 5 then t.header.toNat / 2 ^ 12 % 2 ^ 12
  else t.header.toNat % 2 ^ 22

/-- Whether the format carries a span. -/
def carriesSpan (t : Transaction) : Prop := opNumber t = 4 ∨ opNumber t = 5 ∨ opNumber t = 8

/-- The payload word count the format requires (30_encoding R81), by opcode as the table of `PayloadWords(H)` has it
(R85). -/
def requiredWords (t : Transaction) : Nat :=
  if opNumber t = 3 then 2
  else if opNumber t = 4 ∨ opNumber t = 5 ∨ opNumber t = 8 then (announcedSpan t + 3) / 4
  else 0

/-- Byte lane k of a payload: `P[k div 4][31 - 8*(k mod 4) : 24 - 8*(k mod 4)]` (30_encoding R79). -/
def laneByte (p : List Word) (k : Nat) : Nat := (p.getD (k / 4) 0#32).toNat / 2 ^ (24 - 8 * (k % 4)) % 256

/-- The five causes of ILLEGAL_COMMAND at port p, in the order of 60_exceptions R152. -/
def Malformed (p : Port) (t : Transaction) : Prop :=
  (opNumber t = 0 ∨ opNumber t = 7 ∨ 10 ≤ opNumber t) ∨
  (match p with
    | .writer _ => 8 ≤ opNumber t ∧ opNumber t ≤ 9
    | .reader _ => 1 ≤ opNumber t ∧ opNumber t ≤ 6) ∨
  (∃ b, firstReservedBit (opNumber t) ≤ b ∧ b < 28 ∧ t.header.toNat.testBit b = true) ∨
  t.payload.length ≠ requiredWords t ∨
  (carriesSpan t ∧ ∃ k, announcedSpan t ≤ k ∧ k < 4 * t.payload.length ∧ laneByte t.payload k ≠ 0)

/-! ### The status of a command (60_exceptions R160) -/

/-- The first status that applies to a command at a writer with the given registers. -/
def writerStatus (cap : Nat) (w : Writer) : Instr → Status
  | .wNew => .ok
  | .wFinish => if w.phase = .finished then .writerFinished else .ok
  | .wBit _ =>
    if w.phase = .finished then .writerFinished
    else if cap < ceil8 (w.bitlen + 1) then .capacityExceeded else .ok
  | .wInt width _ =>
    if w.phase = .finished then .writerFinished
    else if width.toNat = 0 ∨ 64 < width.toNat then .invalidFieldWidth
    else if cap < ceil8 (w.bitlen + width.toNat) then .capacityExceeded else .ok
  | .wBytes bytes =>
    if w.phase = .finished then .writerFinished
    else if cap < ceil8 (w.bitlen + 8 * bytes.length) then .capacityExceeded else .ok
  | .wStr f text =>
    if w.phase = .finished then .writerFinished
    else if f.toNat < text.length then .fieldOverflow
    else if cap < ceil8 (w.bitlen + 8 * f.toNat) then .capacityExceeded else .ok
  | .rInit _ _ => .illegalCommand
  | .rNext => .illegalCommand

/-- The first status that applies to a command at a reader with the given registers. -/
def readerStatus (cap : Nat) (r : Reader) : Instr → Status
  | .rInit w bytes =>
    if w.toNat = 0 ∨ 32 < w.toNat then .invalidFieldWidth
    else if cap < bytes.length then .capacityExceeded else .ok
  | .rNext =>
    if r.phase = .idle then .readerIdle
    else if r.phase = .exhausted ∨ 8 * r.src.length < r.bitCursor + r.fw.toNat then .done else .ok
  | .wNew | .wBit _ | .wInt _ _ | .wBytes _ | .wStr _ _ | .wFinish => .illegalCommand

/-! ### Runs -/

/-- Commands carried out one after another at the port being served. -/
def execAll : List Instr → State → Host.Outcome State Fault Refusal
  | [], s => .next s
  | i :: is, s =>
    match exec i s with
    | .next t => execAll is t
    | .fault f => .fault f
    | .refused r => .refused r

/-- The responses given at one port, oldest first. -/
def State.responsesAt (p : Port) (s : State) : List Response :=
  (s.responses.filter (fun x => decide (x.1 = p))).map (fun x => x.2)

/-- What a run shows: the responses in order, with the final registers (70_reset R185). -/
def State.observation (s : State) : List (Port × Response) × List Writer × List Reader :=
  (s.responses, s.writers, s.readers)

/-- Every response so far is OK or DONE, the usual premise of a claim about a run (decision D28). -/
def State.NoErrors (s : State) : Prop := ∀ x ∈ s.responses, x.2.status.isError = false

end Sys2Proof.Machine
end

