-- ==== Sys2Proof/Certificates/Slice0/Obligations.lean ====
section
/-! DEFINITION. The statements for the provers, taken from the numbered rules of the spec. A writer's registers are
written `⟨.opened, pack S, S.length⟩` where the rule speaks of its stream S (10_state R23);
`Obligations.WriterContentIsPackedStream` says that every writer that meets the invariant has that form. -/

open Sys2Proof Sys2Proof.Machine

/-! ### Encoding (30_encoding) -/

/-- R72 to R80: words written out from the formats decode to the commands they stand for (vectors V1, V3, V12, V21,
V25, V32, V38 and V41's width). -/
def Obligations.SpecWordsDecode : Prop :=
  decode ⟨0x10000000#32, []⟩ = .ok .wNew ∧
  decode ⟨0x20000000#32, []⟩ = .ok (.wBit false) ∧
  decode ⟨0x20000001#32, []⟩ = .ok (.wBit true) ∧
  decode ⟨0x30000040#32, [0x01234567#32, 0x89ABCDEF#32]⟩ = .ok (.wInt 64#7 0x0123456789ABCDEF#64) ∧
  decode ⟨0x40000002#32, [0x12340000#32]⟩ = .ok (.wBytes [0x12#8, 0x34#8]) ∧
  decode ⟨0x50003005#32, [0x41424300#32]⟩ = .ok (.wStr 5#12 [0x41#8, 0x42#8, 0x43#8]) ∧
  decode ⟨0x60000000#32, []⟩ = .ok .wFinish ∧
  decode ⟨0x82800003#32, [0x748F0000#32]⟩ = .ok (.rInit 10#6 [0x74#8, 0x8F#8, 0x00#8]) ∧
  decode ⟨0x80C00001#32, [0xFF000000#32]⟩ = .ok (.rInit 3#6 [0xFF#8]) ∧
  decode ⟨0x90000000#32, []⟩ = .ok .rNext

/-- R73 to R80: every well-formed command, with every operand, is read back from its encoding. -/
def Obligations.DecodeOfEncode : Prop := ∀ i : Instr, i.wellFormed = true → decode (encode i) = .ok i

/-- R81, R82, R84: a transaction that decodes is the encoding of a well-formed command and of no other. -/
def Obligations.EncodeOfDecode : Prop :=
  ∀ (t : Transaction) (i : Instr), decode t = .ok i → i.wellFormed = true ∧ encode i = t

/-- R85: `PayloadWords(H)` is the table's word count for every header, 0 for a reserved opcode; a word stream is
framed by it alone, whether or not the transaction is a command (a reserved opcode as a header alone); and a
transaction that decodes has that many payload words. -/
def Obligations.FramingRecoversTransaction : Prop :=
  (∀ t : Transaction, payloadWords t.header = requiredWords t) ∧
  (∀ (t : Transaction) (rest : List Word), t.payload.length = requiredWords t →
    frame (t.header :: (t.payload ++ rest)) = some (t, rest)) ∧
  (∀ (h : Word) (rest : List Word), (opNumber ⟨h, []⟩ = 0 ∨ opNumber ⟨h, []⟩ = 7 ∨ 10 ≤ opNumber ⟨h, []⟩) →
    frame (h :: rest) = some (⟨h, []⟩, rest)) ∧
  (∀ (t : Transaction) (i : Instr), decode t = .ok i → t.payload.length = requiredWords t)

/-- R79: byte k of a span is lane k mod 4 of word k div 4, most significant lane first. -/
def Obligations.SpanBytesAreLanes : Prop :=
  ∀ (p : List Word) (n k : Nat), k < n → n ≤ 4 * p.length →
    (unpack p n)[k]? = some (BitVec.ofNat 8 (laneByte p k))

/-- R152 (with R71, R81 to R83): a served transaction is answered with ILLEGAL_COMMAND exactly where one of the five
causes holds, and then nothing but the response is recorded. -/
def Obligations.IllegalExactlyWhereMalformed : Prop :=
  ∀ (s : State) (p : Port) (t : Transaction) (left : List (Port × Transaction)) (rest : List Event),
    s.WillServe p t left rest → s.hasPort p = true →
      (Malformed p t → step s = .next (s.refusal p left rest .illegalCommand)) ∧
      (¬ Malformed p t → ∃ u r, step s = .next u ∧ u.responses = s.responses ++ [(p, r)] ∧ r.status ≠ .illegalCommand)

/-- R83: a reserved opcode, or an opcode of the other engine kind, is ILLEGAL_COMMAND whatever the other bits and the
payload; the instance whose port received it answers, and no engine's state changes. -/
def Obligations.ReservedAndForeignOpcodesRefused : Prop :=
  ∀ (s : State) (p : Port) (t : Transaction) (left : List (Port × Transaction)) (rest : List Event),
    s.WillServe p t left rest → s.hasPort p = true →
    (opNumber t = 0 ∨ opNumber t = 7 ∨ 10 ≤ opNumber t ∨
      (∃ k, p = .writer k ∧ 8 ≤ opNumber t) ∨ (∃ k, p = .reader k ∧ opNumber t ≤ 6)) →
    step s = .next (s.refusal p left rest .illegalCommand)

/-! ### The step -/

/-- 20_memory R58, 30_encoding R70: a served port's oldest command, when its words decode to i, is carried out as i,
at that port; with an empty agenda the oldest command in flight is served (the model's choice, log entry 8). -/
def Obligations.StepRunsServedCommand : Prop :=
  ∀ (s : State) (p : Port) (t : Transaction) (i : Instr) (left : List (Port × Transaction)), decode t = .ok i →
    (∀ rest, s.WillServe p t left rest → step s = exec i { s with agenda := rest, inflight := left, serving := p }) ∧
    (s.agenda = [] → s.inflight = (p, t) :: left → step s = exec i { s with inflight := left, serving := p })

/-- 30_encoding R70, 60_exceptions R170, and choices of the model: a delivery puts the command last in flight and
changes nothing else (the list of commands in flight is log entry 5's); a step with an empty agenda and nothing in
flight changes nothing (log entry 8); serving a port with nothing waiting, whether or not the port exists, only takes
the event (log entry 10). -/
def Obligations.DeliveryAndWaiting : Prop :=
  (∀ (s : State) (p : Port) (t : Transaction) (rest : List Event), s.agenda = .deliver p t :: rest →
    s.hasPort p = true → step s = .next { s with agenda := rest, inflight := s.inflight ++ [(p, t)] }) ∧
  (∀ s : State, s.agenda = [] → s.inflight = [] → step s = .next s) ∧
  (∀ (s : State) (p : Port) (rest : List Event), s.agenda = .serve p :: rest → (∀ x ∈ s.inflight, x.1 ≠ p) →
    step s = .next { s with agenda := rest })

/-- 60_exceptions R168: an event at the port of an instance the machine does not have stops the model (log entry
10); a command carried out at such a port does too. -/
def Obligations.MissingInstanceStops : Prop :=
  (∀ (s : State) (p : Port) (t : Transaction) (rest : List Event), s.agenda = .deliver p t :: rest →
    s.hasPort p = false → step s = .fault .noSuchPort) ∧
  (∀ (s : State) (p : Port) (rest : List Event), s.agenda = .reset (.instanceAt p) :: rest →
    s.hasPort p = false → step s = .fault .noSuchPort) ∧
  (∀ (i : Instr) (s : State), s.hasPort s.serving = false → exec i s = .fault .noSuchPort)

/-! ### Reset (10_state R33, 70_reset) -/

/-- R33: every register of every instance has its reset value. -/
def Obligations.ResetRegisterValues : Prop :=
  (∀ w ∈ State.reset.writers, w.phase = .opened ∧ w.buf = [] ∧ w.bitlen = 0) ∧
  (∀ r ∈ State.reset.readers, r.phase = .idle ∧ r.src = [] ∧ r.fw = 0#6 ∧ r.ridx = 0 ∧ r.acc = 0#40 ∧ r.held = 0#6)

/-- R180: a reset gives every register of the instance (or of all instances) its reset value, discards the commands
not yet answered there, and answers nothing. -/
def Obligations.ResetEventDiscards : Prop :=
  (∀ (s : State) (k : Nat) (w : Writer) (rest : List Event),
    s.agenda = .reset (.instanceAt (.writer k)) :: rest → s.writers[k]? = some w →
    ∃ left, step s = .next { s with agenda := rest, writers := s.writers.set k ⟨.opened, [], 0⟩, inflight := left } ∧
      (∀ x ∈ left, x.1 ≠ .writer k) ∧
      (∀ q, q ≠ Port.writer k → left.filter (fun x => decide (x.1 = q)) = s.inflight.filter (fun x => decide (x.1 = q)))) ∧
  (∀ (s : State) (k : Nat) (r : Reader) (rest : List Event),
    s.agenda = .reset (.instanceAt (.reader k)) :: rest → s.readers[k]? = some r →
    ∃ left, step s =
        .next { s with agenda := rest, readers := s.readers.set k ⟨.idle, [], 0#6, 0, 0#40, 0#6⟩, inflight := left } ∧
      (∀ x ∈ left, x.1 ≠ .reader k) ∧
      (∀ q, q ≠ Port.reader k → left.filter (fun x => decide (x.1 = q)) = s.inflight.filter (fun x => decide (x.1 = q)))) ∧
  (∀ (s : State) (rest : List Event), s.agenda = .reset .all :: rest →
    step s = .next { s with
      agenda := rest, inflight := [],
      writers := List.replicate s.writers.length ⟨.opened, [], 0⟩,
      readers := List.replicate s.readers.length ⟨.idle, [], 0#6, 0, 0#40, 0#6⟩ })

/-- R182: W_NEW leaves the writer's registers as reset does and answers; a successful R_INIT leaves every reader
register independent of what it held; no command returns a reader to Idle. -/
def Obligations.SoftResets : Prop :=
  (∀ (s : State) (k : Nat) (w : Writer) (rest : List Event), s.ServesWriter k w →
    s.agenda = .reset (.instanceAt (.writer k)) :: rest →
    ∃ t u, exec .wNew s = .next t ∧ step s = .next u ∧ t.writers = u.writers ∧
      t.responses = s.responses ++ [(.writer k, ⟨.ok, .empty⟩)]) ∧
  (∀ (s s' : State) (k : Nat) (r r' : Reader) (w : BitVec 6) (bytes : List Byte), s.ServesReader k r →
    s'.ServesReader k r' → 1 ≤ w.toNat → w.toNat ≤ 32 → bytes.length ≤ s.params.rbufBytes →
    bytes.length ≤ s'.params.rbufBytes →
    ∃ t t', exec (.rInit w bytes) s = .next t ∧ exec (.rInit w bytes) s' = .next t' ∧ t.readers[k]? = t'.readers[k]?) ∧
  (∀ (s t : State) (i : Instr) (k : Nat) (r r' : Reader), exec i s = .next t → s.readers[k]? = some r →
    t.readers[k]? = some r' → r'.phase = .idle → r.phase = .idle)

/-! ### Writer commands (40_bitwriter) -/

/-- R102: W_NEW, in either phase, leaves an empty open writer and answers OK; nothing else changes. -/
def Obligations.WNewCompletes : Prop :=
  ∀ (s : State) (k : Nat) (w : Writer), s.ServesWriter k w →
    exec .wNew s = .next (s.writerResult k ⟨.opened, [], 0⟩ ⟨.ok, .empty⟩)

/-- R103: W_BIT on an open writer with room: at a byte-aligned position a byte with the bit on top is appended,
elsewhere the bit is OR'ed into bit `7 - off` of the last byte; BITLEN grows by 1; nothing else changes. -/
def Obligations.WBitCompletes : Prop :=
  ∀ (s : State) (k : Nat) (w : Writer) (b : Bool), s.ServesWriter k w → w.phase = .opened →
    ceil8 (w.bitlen + 1) ≤ s.params.wbufBytes →
    (w.bitlen % 8 = 0 →
      exec (.wBit b) s = .next (s.writerResult k ⟨.opened, w.buf ++ [if b then 0x80#8 else 0x00#8], w.bitlen + 1⟩
        ⟨.ok, .empty⟩)) ∧
    (∀ init last, w.bitlen % 8 ≠ 0 → w.buf = init ++ [last] →
      exec (.wBit b) s = .next (s.writerResult k
        ⟨.opened, init ++ [last ||| BitVec.ofNat 8 (b.toNat * 2 ^ (7 - w.bitlen % 8))], w.bitlen + 1⟩ ⟨.ok, .empty⟩))

/-- R104: W_INT of a legal width on an open writer with room appends the low w bits of the value, most significant
first; nothing else changes. -/
def Obligations.WIntCompletes : Prop :=
  ∀ (s : State) (k : Nat) (bits : List Bool) (w : BitVec 7) (value : BitVec 64),
    s.ServesWriter k ⟨.opened, pack bits, bits.length⟩ → 1 ≤ w.toNat → w.toNat ≤ 64 →
    ceil8 (bits.length + w.toNat) ≤ s.params.wbufBytes →
    exec (.wInt w value) s = .next (s.writerResult k
      ⟨.opened, pack (bits ++ bitsOf value.toNat w.toNat), bits.length + w.toNat⟩ ⟨.ok, .empty⟩)

/-- R106: W_BYTES on an open writer with room appends the bits of its bytes; at a byte-aligned position BUF is
extended by the bytes themselves; nothing else changes. -/
def Obligations.WBytesCompletes : Prop :=
  ∀ (s : State) (k : Nat) (bits : List Bool) (bytes : List Byte),
    s.ServesWriter k ⟨.opened, pack bits, bits.length⟩ →
    ceil8 (bits.length + 8 * bytes.length) ≤ s.params.wbufBytes →
    exec (.wBytes bytes) s = .next (s.writerResult k
      ⟨.opened, pack (bits ++ bytesToBits bytes), bits.length + 8 * bytes.length⟩ ⟨.ok, .empty⟩) ∧
    (bits.length % 8 = 0 → pack (bits ++ bytesToBits bytes) = pack bits ++ bytes)

/-- R108: W_STR with `L <= F` on an open writer with room appends the text and then spaces to F bytes; nothing else
changes. -/
def Obligations.WStrCompletes : Prop :=
  ∀ (s : State) (k : Nat) (bits : List Bool) (f : BitVec 12) (text : List Byte),
    s.ServesWriter k ⟨.opened, pack bits, bits.length⟩ → text.length ≤ f.toNat →
    ceil8 (bits.length + 8 * f.toNat) ≤ s.params.wbufBytes →
    exec (.wStr f text) s = .next (s.writerResult k
      ⟨.opened, pack (bits ++ bytesToBits (text ++ List.replicate (f.toNat - text.length) 0x20#8)),
        bits.length + 8 * f.toNat⟩ ⟨.ok, .empty⟩)

/-- R109: W_FINISH on an open writer hands out BUF and leaves an empty finished writer; nothing else changes. -/
def Obligations.WFinishCompletes : Prop :=
  ∀ (s : State) (k : Nat) (w : Writer), s.ServesWriter k w → w.phase = .opened →
    exec .wFinish s = .next (s.writerResult k ⟨.finished, [], 0⟩ ⟨.ok, .bytes w.buf⟩)

/-- R155: every writer command except W_NEW is refused with WRITER_FINISHED while the writer is Finished. -/
def Obligations.FinishedWriterRefuses : Prop :=
  ∀ (s : State) (k : Nat) (w : Writer) (i : Instr), s.ServesWriter k w → w.phase = .finished →
    i.engine = .writer → i ≠ .wNew → exec i s = .next (s.writerResult k w ⟨.writerFinished, .empty⟩)

/-- R23, R24: BUF is append-only. A command other than W_NEW and W_FINISH changes no byte before the last, keeps the
bits already written, and does not shorten BUF; W_NEW and a successful W_FINISH set it to []. -/
def Obligations.BufIsAppendOnly : Prop :=
  ∀ (s t : State) (i : Instr) (k : Nat) (w w' : Writer), exec i s = .next t → s.writers[k]? = some w →
    t.writers[k]? = some w' → w.Inv s.params.wbufBytes →
    (i ≠ .wNew → i ≠ .wFinish →
      w.buf.length ≤ w'.buf.length ∧ (∀ a, a + 1 < w.buf.length → w'.buf[a]? = w.buf[a]?) ∧
      (∀ p, p < w.bitlen → bitAt w'.buf p = bitAt w.buf p)) ∧
    (w'.buf.length < w.buf.length → w'.buf = [])

/-- R29: reset and W_NEW open a writer from any phase, a successful W_FINISH finishes one, no other command changes
WPHASE, and a finished writer refuses every writer command except W_NEW with WRITER_FINISHED. -/
def Obligations.WriterPhaseTransitions : Prop :=
  (∀ (s t : State) (k : Nat) (w' : Writer) (rest : List Event), s.agenda = .reset (.instanceAt (.writer k)) :: rest →
    step s = .next t → t.writers[k]? = some w' → w'.phase = .opened) ∧
  (∀ (s : State) (k : Nat) (w : Writer), s.ServesWriter k w →
    ∃ t w', exec .wNew s = .next t ∧ t.writers[k]? = some w' ∧ w'.phase = .opened) ∧
  (∀ (s : State) (k : Nat) (w : Writer), s.ServesWriter k w → w.phase = .opened →
    ∃ t w', exec .wFinish s = .next t ∧ t.writers[k]? = some w' ∧ w'.phase = .finished) ∧
  (∀ (s t : State) (i : Instr) (k : Nat) (w w' : Writer), exec i s = .next t → s.writers[k]? = some w →
    t.writers[k]? = some w' → w'.phase ≠ w.phase →
    s.serving = .writer k ∧ ((i = .wNew ∧ w'.phase = .opened) ∨ (i = .wFinish ∧ w'.phase = .finished))) ∧
  (∀ (s : State) (k : Nat) (w : Writer) (i : Instr), s.ServesWriter k w → w.phase = .finished →
    i.engine = .writer → i ≠ .wNew →
    ∃ t, exec i s = .next t ∧ t.responses = s.responses ++ [(.writer k, ⟨.writerFinished, .empty⟩)])

/-- R105: a W_INT and the W_INT of the value masked to its width have the same effect, for every width; and the fast
path appends what the bit loop appends, for every legal width. -/
def Obligations.IntTruncationAndFastPath : Prop :=
  (∀ (s : State) (w : BitVec 7) (value : BitVec 64),
    exec (.wInt w value) s = exec (.wInt w (maskValue w.toNat value)) s) ∧
  (∀ (wr : Writer) (value : BitVec 64) (w : Nat), 1 ≤ w → w ≤ 64 → wr.putIntFast value w = wr.putInt value w)

/-- R107: for 1 <= k <= 8, W_INT of width 8k and W_BYTES of the k low bytes have the same effect and answer; at a
byte-aligned position both append those bytes directly. -/
def Obligations.WholeByteIntIsBytes : Prop :=
  (∀ (s : State) (value : BitVec 64) (k : Nat), 1 ≤ k → k ≤ 8 →
    exec (.wInt (BitVec.ofNat 7 (8 * k)) value) s =
      exec (.wBytes ((List.range k).map (fun j => BitVec.ofNat 8 (value.toNat / 2 ^ (8 * (k - 1 - j)))))) s) ∧
  (∀ (s : State) (k : Nat) (w : Writer) (bytes : List Byte), s.ServesWriter k w → w.phase = .opened →
    w.bitlen % 8 = 0 → ceil8 (w.bitlen + 8 * bytes.length) ≤ s.params.wbufBytes →
    exec (.wBytes bytes) s = .next (s.writerResult k ⟨.opened, w.buf ++ bytes, w.bitlen + 8 * bytes.length⟩
      ⟨.ok, .empty⟩))

/-- R108: with L <= F, W_STR has the effect of W_BYTES of the padded text. -/
def Obligations.StrIsPaddedBytes : Prop :=
  ∀ (s : State) (f : BitVec 12) (text : List Byte), text.length ≤ f.toNat →
    exec (.wStr f text) s = exec (.wBytes (text ++ List.replicate (f.toNat - text.length) 0x20#8)) s

/-- R106, 30_encoding R90: where W_BYTES of a whole span succeeds, W_BYTES of its two parts, in order, both succeed
and leave the same registers. -/
def Obligations.SplitSpansAgree : Prop :=
  ∀ (s : State) (k : Nat) (w : Writer) (a b : List Byte), s.ServesWriter k w → w.phase = .opened →
    ceil8 (w.bitlen + 8 * (a ++ b).length) ≤ s.params.wbufBytes →
    ∃ t u v, exec (.wBytes a) s = .next t ∧ exec (.wBytes b) t = .next u ∧ exec (.wBytes (a ++ b)) s = .next v ∧
      u.writers = v.writers ∧ v.responses = s.responses ++ [(.writer k, ⟨.ok, .empty⟩)] ∧
      u.responses = s.responses ++ [(.writer k, ⟨.ok, .empty⟩), (.writer k, ⟨.ok, .empty⟩)]

/-- R111: the bit position after a successful appending command is the position before plus exactly the bits it
appends: 1, w, 8n or 8F. -/
def Obligations.NoInterFieldPadding : Prop :=
  ∀ (s t : State) (k : Nat) (w w' : Writer) (i : Instr), s.ServesWriter k w → exec i s = .next t →
    t.responses = s.responses ++ [(.writer k, ⟨.ok, .empty⟩)] → t.writers[k]? = some w' → i ≠ .wNew →
    w'.bitlen = w.bitlen +
      (match i with
        | .wBit _ => 1
        | .wInt width _ => width.toNat
        | .wBytes bytes => 8 * bytes.length
        | .wStr f _ => 8 * f.toNat
        | .wNew | .wFinish | .rInit _ _ | .rNext => 0)

/-- R110: after any sequence of commands that all answer OK without data, started from an empty open writer and
none of them W_NEW, W_FINISH returns the packed concatenation of what they append; for W_BITs alone, the packed
bits. -/
def Obligations.FinishReturnsPackedStream : Prop :=
  (∀ (s t : State) (k : Nat) (is : List Instr), s.ServesWriter k ⟨.opened, [], 0⟩ → (∀ i ∈ is, i ≠ .wNew) →
    execAll is s = .next t → t.responses = s.responses ++ List.replicate is.length (.writer k, ⟨.ok, .empty⟩) →
    ∃ u, exec .wFinish t = .next u ∧
      u.responses = t.responses ++ [(.writer k, ⟨.ok, .bytes (pack (is.flatMap Instr.appends))⟩)]) ∧
  (∀ (s : State) (k : Nat) (bits : List Bool), s.ServesWriter k ⟨.opened, [], 0⟩ →
    ceil8 bits.length ≤ s.params.wbufBytes →
    ∃ t, execAll (bits.map Instr.wBit ++ [.wFinish]) s = .next t ∧
      t.responses = s.responses ++ List.replicate bits.length (.writer k, ⟨.ok, .empty⟩) ++
        [(.writer k, ⟨.ok, .bytes (pack bits)⟩)])

/-! ### Error statuses (60_exceptions) -/

/-- R153: INVALID_FIELD_WIDTH is returned by W_INT of width 0 or above 64 on an open writer and by R_INIT of a width
outside 1 to 32, with nothing changed, and by no other command or width. -/
def Obligations.InvalidWidthsRefused : Prop :=
  (∀ (s : State) (k : Nat) (w : Writer) (width : BitVec 7) (value : BitVec 64), s.ServesWriter k w →
    w.phase = .opened → (width.toNat = 0 ∨ 64 < width.toNat) →
    exec (.wInt width value) s = .next (s.writerResult k w ⟨.invalidFieldWidth, .empty⟩)) ∧
  (∀ (s : State) (k : Nat) (r : Reader) (width : BitVec 6) (bytes : List Byte), s.ServesReader k r →
    (width.toNat < Config.fwMin ∨ Config.fwMax < width.toNat) →
    exec (.rInit width bytes) s = .next (s.readerResult k r ⟨.invalidFieldWidth, .empty⟩)) ∧
  (∀ (s t : State) (i : Instr) (r : Response), exec i s = .next t → t.responses = s.responses ++ [(s.serving, r)] →
    r.status = .invalidFieldWidth →
    (∃ width value, i = .wInt width value ∧ (width.toNat = 0 ∨ 64 < width.toNat)) ∨
    (∃ width bytes, i = .rInit width bytes ∧ (width.toNat < Config.fwMin ∨ Config.fwMax < width.toNat)))

/-- R154: FIELD_OVERFLOW is returned by W_STR on an open writer when L > F, with nothing changed, and by no other
command. -/
def Obligations.LongTextRefused : Prop :=
  (∀ (s : State) (k : Nat) (w : Writer) (f : BitVec 12) (text : List Byte), s.ServesWriter k w →
    w.phase = .opened → f.toNat < text.length →
    exec (.wStr f text) s = .next (s.writerResult k w ⟨.fieldOverflow, .empty⟩)) ∧
  (∀ (s t : State) (i : Instr) (r : Response), exec i s = .next t → t.responses = s.responses ++ [(s.serving, r)] →
    r.status = .fieldOverflow → ∃ f text, i = .wStr f text ∧ f.toNat < text.length)

/-- R157: CAPACITY_EXCEEDED is returned by an appending command with legal operands on an open writer where
`ceil8(BITLEN + k) > WBUF_BYTES`, and by R_INIT of a legal width where `n > RBUF_BYTES`; nothing changes. -/
def Obligations.CapacityRefused : Prop :=
  (∀ (s : State) (k : Nat) (w : Writer) (b : Bool), s.ServesWriter k w → w.phase = .opened →
    s.params.wbufBytes < ceil8 (w.bitlen + 1) →
    exec (.wBit b) s = .next (s.writerResult k w ⟨.capacityExceeded, .empty⟩)) ∧
  (∀ (s : State) (k : Nat) (w : Writer) (width : BitVec 7) (value : BitVec 64), s.ServesWriter k w →
    w.phase = .opened → 1 ≤ width.toNat → width.toNat ≤ 64 → s.params.wbufBytes < ceil8 (w.bitlen + width.toNat) →
    exec (.wInt width value) s = .next (s.writerResult k w ⟨.capacityExceeded, .empty⟩)) ∧
  (∀ (s : State) (k : Nat) (w : Writer) (bytes : List Byte), s.ServesWriter k w → w.phase = .opened →
    s.params.wbufBytes < ceil8 (w.bitlen + 8 * bytes.length) →
    exec (.wBytes bytes) s = .next (s.writerResult k w ⟨.capacityExceeded, .empty⟩)) ∧
  (∀ (s : State) (k : Nat) (w : Writer) (f : BitVec 12) (text : List Byte), s.ServesWriter k w → w.phase = .opened →
    text.length ≤ f.toNat → s.params.wbufBytes < ceil8 (w.bitlen + 8 * f.toNat) →
    exec (.wStr f text) s = .next (s.writerResult k w ⟨.capacityExceeded, .empty⟩)) ∧
  (∀ (s : State) (k : Nat) (r : Reader) (width : BitVec 6) (bytes : List Byte), s.ServesReader k r →
    1 ≤ width.toNat → width.toNat ≤ 32 → s.params.rbufBytes < bytes.length →
    exec (.rInit width bytes) s = .next (s.readerResult k r ⟨.capacityExceeded, .empty⟩))

/-- R156: R_NEXT while the reader is Idle is READER_IDLE and changes nothing. -/
def Obligations.IdleReaderRefuses : Prop :=
  ∀ (s : State) (k : Nat) (r : Reader), s.ServesReader k r → r.phase = .idle →
    exec .rNext s = .next (s.readerResult k r ⟨.readerIdle, .empty⟩)

/-- R159: a command answered with an error status changes nothing but the list of responses, its DATA is empty, and
the next command runs as if it had not been sent; a transaction that does not decode is answered so too. -/
def Obligations.ErrorChangesNothing : Prop :=
  (∀ (s t : State) (i : Instr) (r : Response), exec i s = .next t → t.responses = s.responses ++ [(s.serving, r)] →
    r.status.isError = true → r.data = .empty ∧ t = { s with responses := s.responses ++ [(s.serving, r)] }) ∧
  (∀ (s t t' : State) (i j : Instr) (r : Response), exec i s = .next t →
    t.responses = s.responses ++ [(s.serving, r)] → r.status.isError = true → exec j s = .next t' →
    ∃ u r', exec j t = .next u ∧ t'.responses = s.responses ++ [(s.serving, r')] ∧
      u = { t' with responses := t.responses ++ [(s.serving, r')] }) ∧
  (∀ (s : State) (p : Port) (t : Transaction) (e : DecodeError) (left : List (Port × Transaction)) (rest : List Event),
    s.WillServe p t left rest → s.hasPort p = true → decode t = .error e →
    step s = .next (s.refusal p left rest .illegalCommand))

/-- R160: the status of a served command is the first that applies: ILLEGAL_COMMAND for a transaction that does not
decode or is at a port of the other kind, then the order of the table. -/
def Obligations.StatusPriority : Prop :=
  (∀ (s : State) (k : Nat) (w : Writer) (t : Transaction) (left : List (Port × Transaction)) (rest : List Event),
    s.WillServe (.writer k) t left rest → s.writers[k]? = some w →
    ∃ u r, step s = .next u ∧ u.responses = s.responses ++ [(.writer k, r)] ∧
      r.status = (match decode t with
        | .error _ => .illegalCommand
        | .ok i => writerStatus s.params.wbufBytes w i)) ∧
  (∀ (s : State) (k : Nat) (rd : Reader) (t : Transaction) (left : List (Port × Transaction)) (rest : List Event),
    s.WillServe (.reader k) t left rest → s.readers[k]? = some rd → rd.Inv s.params.rbufBytes →
    ∃ u r, step s = .next u ∧ u.responses = s.responses ++ [(.reader k, r)] ∧
      r.status = (match decode t with
        | .error _ => .illegalCommand
        | .ok i => readerStatus s.params.rbufBytes rd i))

/-- R86: a command carried out at an existing port gives exactly one response, there; its DATA is BUF for a W_FINISH
that answers OK, a word for an R_NEXT that answers OK, and empty for everything else. R151: the statuses have the codes 0 to 7 of the table, so 8 to 15 are never returned. -/
def Obligations.OneResponsePerCommand : Prop :=
  (∀ (s : State) (i : Instr), s.hasPort s.serving = true → ∃ t, exec i s = .next t) ∧
  (∀ (s t : State) (i : Instr), exec i s = .next t →
    ∃ r, t.responses = s.responses ++ [(s.serving, r)] ∧
      ((i = .wFinish ∧ r.status = .ok ∧ ∃ k w, s.ServesWriter k w ∧ r.data = .bytes w.buf) ∨
       (i = .rNext ∧ r.status = .ok ∧ ∃ v, r.data = .word v) ∨
       (¬ (i = .wFinish ∧ r.status = .ok) ∧ ¬ (i = .rNext ∧ r.status = .ok) ∧ r.data = .empty))) ∧
  (Status.ok.code = 0#4 ∧ Status.done.code = 1#4 ∧ Status.illegalCommand.code = 2#4 ∧
    Status.invalidFieldWidth.code = 3#4 ∧ Status.fieldOverflow.code = 4#4 ∧ Status.writerFinished.code = 5#4 ∧
    Status.readerIdle.code = 6#4 ∧ Status.capacityExceeded.code = 7#4) ∧
  (∀ (s t : State) (p : Port) (r : Response), step s = .next t → t.responses = s.responses ++ [(p, r)] →
    r.status.code.toNat ≤ 7)

/-! ### Reader commands (41_bitfieldreader) -/

/-- R131: R_INIT of a legal width and length, in any phase, starts a pass from bit 0 over its own copy of the bytes;
nothing else changes. -/
def Obligations.RInitCompletes : Prop :=
  ∀ (s : State) (k : Nat) (r : Reader) (w : BitVec 6) (bytes : List Byte), s.ServesReader k r →
    Config.fwMin ≤ w.toNat → w.toNat ≤ Config.fwMax → bytes.length ≤ s.params.rbufBytes →
    exec (.rInit w bytes) s = .next (s.readerResult k ⟨.active, bytes, w, 0, 0#40, 0#6⟩ ⟨.ok, .empty⟩)

/-- R132, R46: R_NEXT in a pass with FW bits left returns `FieldAt(SRC, BIT_CURSOR, FW)` and moves BIT_CURSOR on by
FW; SRC, FW and the phase stay, and nothing else changes. It shifts in the fewest bytes that make `HELD >= FW`, none
where that holds already, takes FW bits from HELD, and leaves in ACC the source bits from the new BIT_CURSOR on. -/
def Obligations.RNextReturnsField : Prop :=
  ∀ (s : State) (k : Nat) (r : Reader), s.ServesReader k r → r.Inv s.params.rbufBytes → r.phase = .active →
    r.bitCursor + r.fw.toNat ≤ 8 * r.src.length →
    ∃ r', exec .rNext s =
        .next (s.readerResult k r' ⟨.ok, .word (BitVec.ofNat 32 (fieldAt r.src r.bitCursor r.fw.toNat))⟩) ∧
      fieldAt r.src r.bitCursor r.fw.toNat < 2 ^ 32 ∧
      r'.phase = .active ∧ r'.src = r.src ∧ r'.fw = r.fw ∧ r'.bitCursor = r.bitCursor + r.fw.toNat ∧
      (r.fw.toNat ≤ r.held.toNat → r'.ridx = r.ridx ∧ r'.held.toNat = r.held.toNat - r.fw.toNat) ∧
      (r.held.toNat < r.fw.toNat → r'.ridx = r.ridx + ceil8 (r.fw.toNat - r.held.toNat) ∧
        r'.held.toNat = r.held.toNat + 8 * ceil8 (r.fw.toNat - r.held.toNat) - r.fw.toNat) ∧
      r'.acc.toNat = fieldAt r.src (r.bitCursor + r.fw.toNat) r'.held.toNat

/-- R132, R158: R_NEXT in a pass with fewer than FW bits left answers DONE and exhausts the pass, keeping SRC, FW and
BIT_CURSOR, with all of SRC shifted in and the bits left over in HELD and ACC; in an exhausted pass it answers DONE again and changes nothing. -/
def Obligations.RNextDone : Prop :=
  (∀ (s : State) (k : Nat) (r : Reader), s.ServesReader k r → r.Inv s.params.rbufBytes → r.phase = .active →
    8 * r.src.length < r.bitCursor + r.fw.toNat →
    ∃ r', exec .rNext s = .next (s.readerResult k r' ⟨.done, .empty⟩) ∧
      r'.phase = .exhausted ∧ r'.src = r.src ∧ r'.fw = r.fw ∧ r'.bitCursor = r.bitCursor ∧ r'.ridx = r.src.length ∧
      r'.held.toNat = 8 * r.src.length - r.bitCursor ∧ r'.acc.toNat = fieldAt r.src r.bitCursor r'.held.toNat) ∧
  (∀ (s : State) (k : Nat) (r : Reader), s.ServesReader k r → r.phase = .exhausted →
    exec .rNext s = .next (s.readerResult k r ⟨.done, .empty⟩))

/-- R132, R189: an R_NEXT shifts in at most ceil(FW / 8) source bytes. -/
def Obligations.RNextShiftsBoundedBytes : Prop :=
  ∀ (s t : State) (k : Nat) (r r' : Reader), s.ServesReader k r → r.fw.toNat ≤ Config.fwMax →
    exec .rNext s = .next t → t.readers[k]? = some r' → r.ridx ≤ r'.ridx ∧ r'.ridx ≤ r.ridx + ceil8 r.fw.toNat

/-- R30: reset makes a reader Idle, a successful R_INIT makes it Active from any phase, an R_NEXT that finds fewer
than FW bits left makes it Exhausted, and no other command changes RPHASE. -/
def Obligations.ReaderPhaseTransitions : Prop :=
  (∀ (s t : State) (k : Nat) (r' : Reader) (rest : List Event), s.agenda = .reset (.instanceAt (.reader k)) :: rest →
    step s = .next t → t.readers[k]? = some r' → r'.phase = .idle) ∧
  (∀ (s : State) (k : Nat) (r : Reader) (w : BitVec 6) (bytes : List Byte), s.ServesReader k r →
    1 ≤ w.toNat → w.toNat ≤ 32 → bytes.length ≤ s.params.rbufBytes →
    ∃ t r', exec (.rInit w bytes) s = .next t ∧ t.readers[k]? = some r' ∧ r'.phase = .active) ∧
  (∀ (s : State) (k : Nat) (r : Reader), s.ServesReader k r → r.Inv s.params.rbufBytes → r.phase ≠ .idle →
    8 * r.src.length < r.bitCursor + r.fw.toNat →
    ∃ t r', exec .rNext s = .next t ∧ t.readers[k]? = some r' ∧ r'.phase = .exhausted) ∧
  (∀ (s t : State) (i : Instr) (k : Nat) (r r' : Reader), exec i s = .next t → s.readers[k]? = some r →
    t.readers[k]? = some r' → r.Inv s.params.rbufBytes → r'.phase ≠ r.phase → s.serving = .reader k ∧
    ((∃ w bytes, i = .rInit w bytes ∧ r'.phase = .active) ∨
     (i = .rNext ∧ r'.phase = .exhausted ∧ 8 * r.src.length < r.bitCursor + r.fw.toNat)))

/-- R133: after a successful R_INIT W, bs the successive R_NEXTs return the fields of DecodeAll(bs, W) in order, and
every later one DONE. -/
def Obligations.PassYieldsDecodeAll : Prop :=
  ∀ (s : State) (k : Nat) (r : Reader) (w : BitVec 6) (bs : List Byte) (extra : Nat), s.ServesReader k r →
    1 ≤ w.toNat → w.toNat ≤ 32 → bs.length ≤ s.params.rbufBytes →
    ∃ t, execAll (.rInit w bs :: List.replicate (8 * bs.length / w.toNat + extra) .rNext) s = .next t ∧
      t.responses = s.responses ++ [(.reader k, ⟨.ok, .empty⟩)] ++
        (List.range (8 * bs.length / w.toNat)).map
          (fun i => (.reader k, ⟨.ok, .word (BitVec.ofNat 32 (fieldAt bs (i * w.toNat) w.toNat))⟩)) ++
        List.replicate extra (.reader k, ⟨.done, .empty⟩)

/-- R89 (`decode_all`), R133: the host's loop of R_INIT and R_NEXT until DONE returns DecodeAll(bs, W) and leaves the
pass exhausted. Whether or not R_INIT succeeds, the loop ends by a response and leaves no pass under way (the model's
choice, log entry 14). -/
def Obligations.DecodeAllLoopReturnsAllFields : Prop :=
  (∀ (cap : Nat) (r : Reader) (w : BitVec 6) (bs : List Byte), 1 ≤ w.toNat → w.toNat ≤ 32 → bs.length ≤ cap →
    (r.decodeAllLoop cap w bs).2 = decodeAll bs w.toNat ∧ (r.decodeAllLoop cap w bs).1.phase = .exhausted) ∧
  (∀ (cap : Nat) (r : Reader) (w : BitVec 6) (bs : List Byte), r.Inv cap →
    (r.decodeAllLoop cap w bs).1.phase ≠ .active)

/-- R136: fields of one width w <= 32 written to an empty writer and finished are read back masked, then the m zero
fields of the tail padding, then DONE. -/
def Obligations.RoundTripAtOneWidth : Prop :=
  ∀ (s : State) (k j : Nat) (r : Reader) (w : Nat) (values : List (BitVec 64)), 1 ≤ w → w ≤ 32 →
    s.ServesWriter k ⟨.opened, [], 0⟩ → s.readers[j]? = some r →
    ceil8 (values.length * w) ≤ s.params.wbufBytes → ceil8 (values.length * w) ≤ s.params.rbufBytes →
    ∃ t d u, execAll (values.map (Instr.wInt (BitVec.ofNat 7 w)) ++ [.wFinish]) s = .next t ∧
      t.responses = s.responses ++ List.replicate values.length (.writer k, ⟨.ok, .empty⟩) ++
        [(.writer k, ⟨.ok, .bytes d⟩)] ∧
      execAll (.rInit (BitVec.ofNat 6 w) d :: List.replicate
          (values.length + (8 * ceil8 (values.length * w) - values.length * w) / w + 1) .rNext)
        { t with serving := .reader j } = .next u ∧
      u.responses = t.responses ++ [(.reader j, ⟨.ok, .empty⟩)] ++
        values.map (fun v => (.reader j, ⟨.ok, .word (BitVec.ofNat 32 (v.toNat % 2 ^ w))⟩)) ++
        List.replicate ((8 * ceil8 (values.length * w) - values.length * w) / w) (.reader j, ⟨.ok, .word 0#32⟩) ++
        [(.reader j, ⟨.done, .empty⟩)] ∧
      (8 ≤ w → (8 * ceil8 (values.length * w) - values.length * w) / w = 0)

/-- R137: fields of any legal widths written back to back to an empty writer stand in the finished data at the sum of
the widths before them, masked to their width. -/
def Obligations.RoundTripAtMixedWidths : Prop :=
  ∀ (s : State) (k : Nat) (fields : List (BitVec 64 × BitVec 7)),
    (∀ x ∈ fields, 1 ≤ x.2.toNat ∧ x.2.toNat ≤ 64) → s.ServesWriter k ⟨.opened, [], 0⟩ →
    ceil8 ((fields.map (fun x => x.2.toNat)).sum) ≤ s.params.wbufBytes →
    ∃ t d, execAll (fields.map (fun x => .wInt x.2 x.1) ++ [.wFinish]) s = .next t ∧
      t.responses = s.responses ++ List.replicate fields.length (.writer k, ⟨.ok, .empty⟩) ++
        [(.writer k, ⟨.ok, .bytes d⟩)] ∧
      ∀ i x, fields[i]? = some x →
        fieldAt d (((fields.take i).map (fun y => y.2.toNat)).sum) x.2.toNat = x.1.toNat % 2 ^ x.2.toNat

/-! ### The whole machine -/

/-- R31, R24, R59: a writer command at a writer changes that writer's registers and adds one response, and nothing
else: no other writer, no reader (no SRC), no capacity, no command in flight. At a reader's port it changes no
register at all. -/
def Obligations.WriterCommandFrame : Prop :=
  ∀ (s t : State) (i : Instr), i.engine = .writer → exec i s = .next t →
    (∀ j, s.serving ≠ .writer j → t.writers[j]? = s.writers[j]?) ∧ t.writers.length = s.writers.length ∧
    t.readers = s.readers ∧ t.params = s.params ∧ t.agenda = s.agenda ∧ t.inflight = s.inflight ∧
    t.serving = s.serving ∧ ∃ r, t.responses = s.responses ++ [(s.serving, r)]

/-- R31, R62, R59: a reader command at a reader changes that reader's registers and adds one response, and nothing
else: no other reader, no writer (no BUF); R_NEXT changes neither SRC nor FW. At a writer's port it changes no
register at all. -/
def Obligations.ReaderCommandFrame : Prop :=
  ∀ (s t : State) (i : Instr), i.engine = .reader → exec i s = .next t →
    (∀ j, s.serving ≠ .reader j → t.readers[j]? = s.readers[j]?) ∧ t.readers.length = s.readers.length ∧
    t.writers = s.writers ∧ t.params = s.params ∧ t.agenda = s.agenda ∧ t.inflight = s.inflight ∧
    t.serving = s.serving ∧ (∃ r, t.responses = s.responses ++ [(s.serving, r)]) ∧
    (i = .rNext → ∀ (k : Nat) (r r' : Reader), s.readers[k]? = some r → t.readers[k]? = some r' → r'.src = r.src ∧ r'.fw = r.fw)

/-- R55, R31: a command's response and its effect on its instance depend only on that instance's registers, the
capacities and the command. -/
def Obligations.ResultDependsOnInstanceOnly : Prop :=
  (∀ (s s' t : State) (k k' : Nat) (w : Writer) (i : Instr), s.ServesWriter k w → s'.ServesWriter k' w →
    s.params = s'.params → exec i s = .next t →
    ∃ t' r, exec i s' = .next t' ∧ t.responses = s.responses ++ [(.writer k, r)] ∧
      t'.responses = s'.responses ++ [(.writer k', r)] ∧ t.writers[k]? = t'.writers[k']?) ∧
  (∀ (s s' t : State) (k k' : Nat) (rd : Reader) (i : Instr), s.ServesReader k rd → s'.ServesReader k' rd →
    s.params = s'.params → exec i s = .next t →
    ∃ t' r, exec i s' = .next t' ∧ t.responses = s.responses ++ [(.reader k, r)] ∧
      t'.responses = s'.responses ++ [(.reader k', r)] ∧ t.readers[k]? = t'.readers[k']?)

/-- R59: commands to different instances give the same registers, and the same responses at every port, in either
order. -/
def Obligations.InstancesAreIndependent : Prop :=
  ∀ (s t t' u u' : State) (p q : Port) (i j : Instr), p ≠ q →
    exec i { s with serving := p } = .next t → exec j { t with serving := q } = .next t' →
    exec j { s with serving := q } = .next u → exec i { u with serving := p } = .next u' →
    t'.writers = u'.writers ∧ t'.readers = u'.readers ∧ ∀ x, t'.responsesAt x = u'.responsesAt x

/-- R23: a writer that meets the invariant holds a packed stream of BITLEN bits, and every packed stream within the
capacity meets it. -/
def Obligations.WriterContentIsPackedStream : Prop :=
  ∀ (cap : Nat) (w : Writer), w.phase = .opened →
    (w.Inv cap ↔ ∃ bits : List Bool, w.buf = pack bits ∧ w.bitlen = bits.length ∧ bits.length ≤ 8 * cap)

/-- R26, R25: under the invariant a reader holds at most 39 bits, below 2^39 and so within ACC's 40; and BITLEN fits
BITLEN_BITS. -/
def Obligations.RegistersFitTheirWidths : Prop :=
  (∀ (cap : Nat) (r : Reader), r.Inv cap → r.held.toNat ≤ 39 ∧ r.acc.toNat < 2 ^ 39) ∧
  (∀ (cap : Nat) (w : Writer), w.Inv cap → w.bitlen < 2 ^ Config.bitlenBits cap) ∧
  (∀ cap j : Nat, 8 * cap < 2 ^ j → Config.bitlenBits cap ≤ j ∨ cap = 0)

/-- R22, R23, R25 to R28: the state after reset meets the invariant. -/
def Obligations.ResetMeetsInvariant : Prop := State.reset.Inv

/-- R22, R23, R25 to R28: every step keeps the invariant, from every state that meets it. -/
def Obligations.StepKeepsInvariant : Prop := ∀ s t : State, s.Inv → step s = .next t → t.Inv

/-- R150, R161: a machine that meets the invariant never stops: with a next event that names instances it has, or
none, a step answers a next state. -/
def Obligations.StepAlwaysAnswers : Prop :=
  ∀ s : State, s.Inv → (∀ e, s.agenda.head? = some e → s.EventOk e) → ∃ t, step s = .next t

/-- R58: a step changes the capacities never, adds at most one response, and serves a port's commands oldest first:
the command it takes is the first in flight at its port. -/
def Obligations.ResponsesInCommandOrder : Prop :=
  ∀ s t : State, step s = .next t → t.params = s.params ∧
    (t.responses = s.responses ∨ ∃ p r tr, t.responses = s.responses ++ [(p, r)] ∧
      (s.inflight.filter (fun x => decide (x.1 = p))).head? = some (p, tr) ∧
      t.inflight.filter (fun x => decide (x.1 = p)) = (s.inflight.filter (fun x => decide (x.1 = p))).tail)

/-! ### The assembler (30_encoding R88, R89) -/

/-- R88: a line that assembles is a command its header can spell, and a value that does not fit its field is
rejected; the widths and lengths that only give an error status are not. -/
def Obligations.AssemblerRejectsWhatDoesNotFit : Prop :=
  (∀ (x : AsmLine) (i : Instr), assemble x = some i → i.wellFormed = true) ∧
  (∀ b, 1 < b → assemble (.wbit b) = none) ∧
  (∀ v w, 2 ^ 64 ≤ v ∨ 127 < w → assemble (.wint v w) = none) ∧
  (∀ bs, 2 ^ 24 - 1 < bs.length → assemble (.wbytes bs) = none) ∧
  (∀ text f, 4095 < text.length ∨ 4095 < f → assemble (.wstr text f) = none) ∧
  (∀ w bs, 63 < w ∨ 2 ^ 22 - 1 < bs.length → assemble (.rinit w bs) = none) ∧
  (∀ (bs : List Nat) (n : Nat), n ∈ bs → 255 < n → assemble (.wbytes bs) = none ∧
    (∀ f, assemble (.wstr bs f) = none) ∧ ∀ w, assemble (.rinit w bs) = none) ∧
  assemble .wnew = some .wNew ∧ assemble .wfinish = some .wFinish ∧ assemble .rnext = some .rNext ∧
  assemble (.wbit 0) = some (.wBit false) ∧ assemble (.wbit 1) = some (.wBit true) ∧
  (∀ bs : List Byte, bs.length ≤ 2 ^ 24 - 1 → assemble (.wbytes (bs.map BitVec.toNat)) = some (.wBytes bs)) ∧
  (∀ v w, v < 2 ^ 64 → w ≤ 127 → assemble (.wint v w) = some (.wInt (BitVec.ofNat 7 w) (BitVec.ofNat 64 v))) ∧
  (∀ (bs : List Byte) (f : Nat), bs.length ≤ 4095 → f ≤ 4095 →
    assemble (.wstr (bs.map BitVec.toNat) f) = some (.wStr (BitVec.ofNat 12 f) bs)) ∧
  (∀ (bs : List Byte) (w : Nat), bs.length ≤ 2 ^ 22 - 1 → w ≤ 63 →
    assemble (.rinit w (bs.map BitVec.toNat)) = some (.rInit (BitVec.ofNat 6 w) bs))

/-- R89, R90: a span of any length expands to W_BYTES commands, and no others, that a header can spell and that in
order append the span. Where `splitBytes` cuts is the model's choice (log entry 19); R89 allows any cut. -/
def Obligations.LongSpansSplit : Prop :=
  ∀ bytes : List Byte, (∀ i ∈ splitBytes bytes, ∃ piece, i = .wBytes piece ∧ i.wellFormed = true) ∧
    (splitBytes bytes).flatMap Instr.appends = bytesToBits bytes
end

