-- ==== Sys2Proof/Laws/State.lean ====
section
/-! SUPPORT. One lemma per field for each update of the state, so that no later proof unfolds a record update. -/

namespace Sys2Proof.Machine

/-! ### setWriter -/

@[simp] theorem State.setWriter_params (k : Nat) (w : Writer) (s : State) : (s.setWriter k w).params = s.params := rfl
@[simp] theorem State.setWriter_writers (k : Nat) (w : Writer) (s : State) : (s.setWriter k w).writers = s.writers.set k w := rfl
@[simp] theorem State.setWriter_readers (k : Nat) (w : Writer) (s : State) : (s.setWriter k w).readers = s.readers := rfl
@[simp] theorem State.setWriter_agenda (k : Nat) (w : Writer) (s : State) : (s.setWriter k w).agenda = s.agenda := rfl
@[simp] theorem State.setWriter_inflight (k : Nat) (w : Writer) (s : State) : (s.setWriter k w).inflight = s.inflight := rfl
@[simp] theorem State.setWriter_serving (k : Nat) (w : Writer) (s : State) : (s.setWriter k w).serving = s.serving := rfl
@[simp] theorem State.setWriter_responses (k : Nat) (w : Writer) (s : State) : (s.setWriter k w).responses = s.responses := rfl

/-! ### setReader -/

@[simp] theorem State.setReader_params (k : Nat) (r : Reader) (s : State) : (s.setReader k r).params = s.params := rfl
@[simp] theorem State.setReader_writers (k : Nat) (r : Reader) (s : State) : (s.setReader k r).writers = s.writers := rfl
@[simp] theorem State.setReader_readers (k : Nat) (r : Reader) (s : State) : (s.setReader k r).readers = s.readers.set k r := rfl
@[simp] theorem State.setReader_agenda (k : Nat) (r : Reader) (s : State) : (s.setReader k r).agenda = s.agenda := rfl
@[simp] theorem State.setReader_inflight (k : Nat) (r : Reader) (s : State) : (s.setReader k r).inflight = s.inflight := rfl
@[simp] theorem State.setReader_serving (k : Nat) (r : Reader) (s : State) : (s.setReader k r).serving = s.serving := rfl
@[simp] theorem State.setReader_responses (k : Nat) (r : Reader) (s : State) : (s.setReader k r).responses = s.responses := rfl

/-! ### respond -/

@[simp] theorem State.respond_params (r : Response) (s : State) : (s.respond r).params = s.params := rfl
@[simp] theorem State.respond_writers (r : Response) (s : State) : (s.respond r).writers = s.writers := rfl
@[simp] theorem State.respond_readers (r : Response) (s : State) : (s.respond r).readers = s.readers := rfl
@[simp] theorem State.respond_agenda (r : Response) (s : State) : (s.respond r).agenda = s.agenda := rfl
@[simp] theorem State.respond_inflight (r : Response) (s : State) : (s.respond r).inflight = s.inflight := rfl
@[simp] theorem State.respond_serving (r : Response) (s : State) : (s.respond r).serving = s.serving := rfl
@[simp] theorem State.respond_responses (r : Response) (s : State) : (s.respond r).responses = s.responses ++ [(s.serving, r)] := rfl

/-! ### writerResult -/

@[simp] theorem State.writerResult_params (k : Nat) (w : Writer) (r : Response) (s : State) : (s.writerResult k w r).params = s.params := rfl
@[simp] theorem State.writerResult_writers (k : Nat) (w : Writer) (r : Response) (s : State) : (s.writerResult k w r).writers = s.writers.set k w := rfl
@[simp] theorem State.writerResult_readers (k : Nat) (w : Writer) (r : Response) (s : State) : (s.writerResult k w r).readers = s.readers := rfl
@[simp] theorem State.writerResult_agenda (k : Nat) (w : Writer) (r : Response) (s : State) : (s.writerResult k w r).agenda = s.agenda := rfl
@[simp] theorem State.writerResult_inflight (k : Nat) (w : Writer) (r : Response) (s : State) : (s.writerResult k w r).inflight = s.inflight := rfl
@[simp] theorem State.writerResult_serving (k : Nat) (w : Writer) (r : Response) (s : State) : (s.writerResult k w r).serving = s.serving := rfl
@[simp] theorem State.writerResult_responses (k : Nat) (w : Writer) (r : Response) (s : State) : (s.writerResult k w r).responses = s.responses ++ [(.writer k, r)] := rfl

/-! ### readerResult -/

@[simp] theorem State.readerResult_params (k : Nat) (rd : Reader) (r : Response) (s : State) : (s.readerResult k rd r).params = s.params := rfl
@[simp] theorem State.readerResult_writers (k : Nat) (rd : Reader) (r : Response) (s : State) : (s.readerResult k rd r).writers = s.writers := rfl
@[simp] theorem State.readerResult_readers (k : Nat) (rd : Reader) (r : Response) (s : State) : (s.readerResult k rd r).readers = s.readers.set k rd := rfl
@[simp] theorem State.readerResult_agenda (k : Nat) (rd : Reader) (r : Response) (s : State) : (s.readerResult k rd r).agenda = s.agenda := rfl
@[simp] theorem State.readerResult_inflight (k : Nat) (rd : Reader) (r : Response) (s : State) : (s.readerResult k rd r).inflight = s.inflight := rfl
@[simp] theorem State.readerResult_serving (k : Nat) (rd : Reader) (r : Response) (s : State) : (s.readerResult k rd r).serving = s.serving := rfl
@[simp] theorem State.readerResult_responses (k : Nat) (rd : Reader) (r : Response) (s : State) : (s.readerResult k rd r).responses = s.responses ++ [(.reader k, r)] := rfl

/-! ### refusal -/

@[simp] theorem State.refusal_params (p : Port) (left : List (Port × Transaction)) (rest : List Event) (st : Status) (s : State) : (s.refusal p left rest st).params = s.params := rfl
@[simp] theorem State.refusal_writers (p : Port) (left : List (Port × Transaction)) (rest : List Event) (st : Status) (s : State) : (s.refusal p left rest st).writers = s.writers := rfl
@[simp] theorem State.refusal_readers (p : Port) (left : List (Port × Transaction)) (rest : List Event) (st : Status) (s : State) : (s.refusal p left rest st).readers = s.readers := rfl
@[simp] theorem State.refusal_agenda (p : Port) (left : List (Port × Transaction)) (rest : List Event) (st : Status) (s : State) : (s.refusal p left rest st).agenda = rest := rfl
@[simp] theorem State.refusal_inflight (p : Port) (left : List (Port × Transaction)) (rest : List Event) (st : Status) (s : State) : (s.refusal p left rest st).inflight = left := rfl
@[simp] theorem State.refusal_serving (p : Port) (left : List (Port × Transaction)) (rest : List Event) (st : Status) (s : State) : (s.refusal p left rest st).serving = p := rfl
@[simp] theorem State.refusal_responses (p : Port) (left : List (Port × Transaction)) (rest : List Event) (st : Status) (s : State) : (s.refusal p left rest st).responses = s.responses ++ [(p, ⟨st, .empty⟩)] := rfl

/-! ### placeCommand -/

@[simp] theorem State.placeCommand_params (t : Transaction) (s : State) : (s.placeCommand t).params = s.params := rfl
@[simp] theorem State.placeCommand_writers (t : Transaction) (s : State) : (s.placeCommand t).writers = s.writers := rfl
@[simp] theorem State.placeCommand_readers (t : Transaction) (s : State) : (s.placeCommand t).readers = s.readers := rfl
@[simp] theorem State.placeCommand_agenda (t : Transaction) (s : State) : (s.placeCommand t).agenda = .serve (defaultPort t.header) :: s.agenda := rfl
@[simp] theorem State.placeCommand_inflight (t : Transaction) (s : State) : (s.placeCommand t).inflight = (defaultPort t.header, t) :: s.inflight := rfl
@[simp] theorem State.placeCommand_serving (t : Transaction) (s : State) : (s.placeCommand t).serving = s.serving := rfl
@[simp] theorem State.placeCommand_responses (t : Transaction) (s : State) : (s.placeCommand t).responses = s.responses := rfl

/-! ### The engines' updates -/

@[simp] theorem Writer.putBit_phase (b : Bool) (w : Writer) : (w.putBit b).phase = w.phase := rfl
@[simp] theorem Writer.putBit_bitlen (b : Bool) (w : Writer) : (w.putBit b).bitlen = w.bitlen + 1 := rfl
@[simp] theorem Writer.putBytes_phase (bytes : List Byte) (w : Writer) : (w.putBytes bytes).phase = w.phase := rfl
@[simp] theorem Writer.putBytes_bitlen (bytes : List Byte) (w : Writer) : (w.putBytes bytes).bitlen = w.bitlen + 8 * bytes.length := rfl
@[simp] theorem Reader.shiftIn_phase (b : Byte) (r : Reader) : (r.shiftIn b).phase = r.phase := rfl
@[simp] theorem Reader.shiftIn_src (b : Byte) (r : Reader) : (r.shiftIn b).src = r.src := rfl
@[simp] theorem Reader.shiftIn_fw (b : Byte) (r : Reader) : (r.shiftIn b).fw = r.fw := rfl
@[simp] theorem Reader.shiftIn_ridx (b : Byte) (r : Reader) : (r.shiftIn b).ridx = r.ridx + 1 := rfl
@[simp] theorem Reader.shiftIn_acc (b : Byte) (r : Reader) : (r.shiftIn b).acc = (r.acc <<< 8 ||| b.setWidth 40) := rfl
@[simp] theorem Reader.shiftIn_held (b : Byte) (r : Reader) : (r.shiftIn b).held = r.held + 8#6 := rfl
@[simp] theorem Reader.extract_phase  (r : Reader) : (r.extract.1).phase = r.phase := rfl
@[simp] theorem Reader.extract_src  (r : Reader) : (r.extract.1).src = r.src := rfl
@[simp] theorem Reader.extract_fw  (r : Reader) : (r.extract.1).fw = r.fw := rfl
@[simp] theorem Reader.extract_ridx  (r : Reader) : (r.extract.1).ridx = r.ridx := rfl
@[simp] theorem Reader.extract_acc  (r : Reader) : (r.extract.1).acc = BitVec.ofNat 40 (r.acc.toNat % 2 ^ (r.held - r.fw).toNat) := rfl
@[simp] theorem Reader.extract_held  (r : Reader) : (r.extract.1).held = r.held - r.fw := rfl
@[simp] theorem Reader.exhaust_phase  (r : Reader) : (r.exhaust.1).phase = .exhausted := rfl
@[simp] theorem Reader.exhaust_src  (r : Reader) : (r.exhaust.1).src = r.src := rfl
@[simp] theorem Reader.exhaust_fw  (r : Reader) : (r.exhaust.1).fw = r.fw := rfl
@[simp] theorem Reader.exhaust_ridx  (r : Reader) : (r.exhaust.1).ridx = r.ridx := rfl
@[simp] theorem Reader.exhaust_acc  (r : Reader) : (r.exhaust.1).acc = r.acc := rfl
@[simp] theorem Reader.exhaust_held  (r : Reader) : (r.exhaust.1).held = r.held := rfl

@[simp] theorem Response.only_status (st : Status) : (Response.only st).status = st := rfl
@[simp] theorem Response.only_data (st : Status) : (Response.only st).data = .empty := rfl

@[simp] theorem State.hasPort_writer (s : State) (k : Nat) :
    s.hasPort (.writer k) = decide (k < s.writers.length) := rfl
@[simp] theorem State.hasPort_reader (s : State) (k : Nat) :
    s.hasPort (.reader k) = decide (k < s.readers.length) := rfl

end Sys2Proof.Machine
end

