-- ==== Sys2Proof/Laws/Stream.lean ====
section
/-! SUPPORT. The laws of the stream notation (00_scope R9 to R14): lengths, the bits of a packed sequence, equality of
byte sequences by their bits, and how FieldAt splits. -/

namespace Sys2Proof.Machine

/-! ### Lengths -/

@[simp] theorem bitsOf_length (v w : Nat) : (bitsOf v w).length = w := by
  induction w with
  | zero => rfl
  | succ w ih => simp [bitsOf, ih]

@[simp] theorem bytesToBits_nil : bytesToBits [] = [] := rfl

@[simp] theorem bytesToBits_cons (b : Byte) (bs : List Byte) :
    bytesToBits (b :: bs) = bitsOf b.toNat 8 ++ bytesToBits bs := rfl

@[simp] theorem bytesToBits_append (as bs : List Byte) :
    bytesToBits (as ++ bs) = bytesToBits as ++ bytesToBits bs := by simp [bytesToBits]

@[simp] theorem bytesToBits_length (bs : List Byte) : (bytesToBits bs).length = 8 * bs.length := by
  induction bs with
  | nil => rfl
  | cons b bs ih => simp [ih]; omega

@[simp] theorem pack_length (bits : List Bool) : (pack bits).length = ceil8 bits.length := by simp [pack]

theorem pad20_length {text : List Byte} {f : Nat} (h : text.length ≤ f) : (pad20 text f).length = f := by
  simp [pad20]; omega

@[simp] theorem decodeAll_length (bs : List Byte) (w : Nat) : (decodeAll bs w).length = 8 * bs.length / w := by
  simp [decodeAll]

theorem ceil8_mono {a b : Nat} (h : a ≤ b) : ceil8 a ≤ ceil8 b := by unfold ceil8; omega

/-- The capacity test of 40_bitwriter R101 as a bound on bits. -/
theorem ceil8_le_iff (n cap : Nat) : ceil8 n ≤ cap ↔ n ≤ 8 * cap := by unfold ceil8; omega

/-! ### Bits -/

/-- Element i of BitsOf(v, w) is value bit w-1-i. -/
theorem bitsOf_getElem? (v w i : Nat) (h : i < w) : (bitsOf v w)[i]? = some (v.testBit (w - 1 - i)) := by
  induction w generalizing i with
  | zero => omega
  | succ w ih =>
    cases i with
    | zero => simp [bitsOf]
    | succ i =>
      have h2 : w + 1 - 1 - (i + 1) = w - 1 - i := by omega
      rw [h2, bitsOf, List.getElem?_cons_succ, ih i (by omega)]

/-- The byte made of eight bits, most significant first. -/
theorem byteOfBits_getLsbD : ∀ b0 b1 b2 b3 b4 b5 b6 b7 : Bool,
    let v := BitVec.ofNat 8 ([b0.toNat <<< (7 - 0), b1.toNat <<< (7 - 1), b2.toNat <<< (7 - 2), b3.toNat <<< (7 - 3),
      b4.toNat <<< (7 - 4), b5.toNat <<< (7 - 5), b6.toNat <<< (7 - 6), b7.toNat <<< (7 - 7)].sum)
    [v.getLsbD 7, v.getLsbD 6, v.getLsbD 5, v.getLsbD 4, v.getLsbD 3, v.getLsbD 2, v.getLsbD 1, v.getLsbD 0] =
      [b0, b1, b2, b3, b4, b5, b6, b7] := by decide

theorem packByte_getLsbD (bits : List Bool) (k j : Nat) (h : j < 8) :
    (packByte bits k).getLsbD (7 - j) = bits.getD (8 * k + j) false := by
  have hr : List.range 8 = [0, 1, 2, 3, 4, 5, 6, 7] := by decide
  have hb := byteOfBits_getLsbD (bits.getD (8 * k + 0) false) (bits.getD (8 * k + 1) false)
    (bits.getD (8 * k + 2) false) (bits.getD (8 * k + 3) false) (bits.getD (8 * k + 4) false)
    (bits.getD (8 * k + 5) false) (bits.getD (8 * k + 6) false) (bits.getD (8 * k + 7) false)
  simp only [List.cons.injEq, and_true] at hb
  obtain ⟨h0, h1, h2, h3, h4, h5, h6, h7⟩ := hb
  simp only [packByte, hr, List.map_cons, List.map_nil]
  interval_cases j <;> assumption

/-- The bits of a packed sequence: the sequence, then zeros (00_scope R14). -/
@[simp] theorem bitAt_pack (bits : List Bool) (p : Nat) : bitAt (pack bits) p = bits.getD p false := by
  have hp : 8 * (p / 8) + p % 8 = p := by omega
  unfold bitAt
  by_cases h : p / 8 < ceil8 bits.length
  · have hg : (pack bits).getD (p / 8) 0#8 = packByte bits (p / 8) := by
      simp [pack, List.getD_eq_getElem?_getD, h]
    rw [hg, packByte_getLsbD bits (p / 8) (p % 8) (by omega), hp]
  · have h1 : (pack bits).length ≤ p / 8 := by simp; omega
    have h2 : bits.length ≤ p := by unfold ceil8 at h; omega
    rw [List.getD_eq_default _ _ h1, List.getD_eq_default _ _ h2]
    simp

/-- Past the end of a byte sequence there are no bits set. -/
theorem bitAt_of_length_le {bs : List Byte} {p : Nat} (h : 8 * bs.length ≤ p) : bitAt bs p = false := by
  unfold bitAt
  rw [List.getD_eq_default _ _ (by omega)]
  simp

theorem bitAt_append_left {as bs : List Byte} {p : Nat} (h : p < 8 * as.length) : bitAt (as ++ bs) p = bitAt as p := by
  unfold bitAt
  rw [List.getD_append _ _ _ _ (by omega)]

theorem bitAt_append_right {as bs : List Byte} {p : Nat} (h : 8 * as.length ≤ p) :
    bitAt (as ++ bs) p = bitAt bs (p - 8 * as.length) := by
  unfold bitAt
  rw [List.getD_append_right _ _ _ _ (by omega)]
  congr 2 <;> omega

theorem bitAt_singleton (b : Byte) (p : Nat) (h : p < 8) : bitAt [b] p = b.getLsbD (7 - p) := by
  have h0 : p / 8 = 0 := by omega
  have h1 : p % 8 = p := by omega
  simp [bitAt, h0, h1]

/-- Two byte sequences of one length with the same bits are equal. -/
theorem bytes_ext {as bs : List Byte} (hl : as.length = bs.length)
    (hb : ∀ p, p < 8 * as.length → bitAt as p = bitAt bs p) : as = bs := by
  apply List.ext_getElem hl
  intro k ha hbk
  apply BitVec.eq_of_getLsbD_eq
  intro i hi
  have h := hb (8 * k + (7 - i)) (by omega)
  have h1 : (8 * k + (7 - i)) / 8 = k := by omega
  have h2 : 7 - (8 * k + (7 - i)) % 8 = i := by omega
  simp only [bitAt, h1, h2, List.getD_eq_getElem?_getD, List.getElem?_eq_getElem ha, List.getElem?_eq_getElem hbk] at h
  exact h

/-- A byte sequence is the packing of S where it has the right length, S's bits, and a zero tail (10_state R23). -/
theorem eq_pack {bs : List Byte} {bits : List Bool} (hl : bs.length = ceil8 bits.length)
    (hb : ∀ p, p < 8 * bs.length → bitAt bs p = bits.getD p false) : bs = pack bits :=
  bytes_ext (by simpa using hl) (fun p hp => by rw [hb p hp, bitAt_pack])

/-- The bits of a byte sequence, in stream order, are `BytesToBits`. -/
theorem bytesToBits_getD (bs : List Byte) (p : Nat) : (bytesToBits bs).getD p false = bitAt bs p := by
  induction bs generalizing p with
  | nil => simp [bitAt]
  | cons b bs ih =>
    by_cases h : p < 8
    · have ha : bitAt (b :: bs) p = b.getLsbD (7 - p) := by
        rw [show b :: bs = [b] ++ bs from rfl, bitAt_append_left (by simpa using h), bitAt_singleton b p h]
      have hbit := bitsOf_getElem? b.toNat 8 p h
      rw [ha, bytesToBits_cons, List.getD_append _ _ _ _ (by simpa using h), List.getD_eq_getElem?_getD, hbit]
      simp [BitVec.getLsbD]
    · rw [bytesToBits_cons, List.getD_append_right _ _ _ _ (by simp; omega), bitsOf_length, ih,
        show b :: bs = [b] ++ bs from rfl, bitAt_append_right (by simp; omega)]
      simp

/-- Packing whole bytes gives them back. -/
theorem pack_bytesToBits (bs : List Byte) : pack (bytesToBits bs) = bs :=
  (eq_pack (by simp [ceil8]; omega) (fun p _ => (bytesToBits_getD bs p).symm)).symm

/-- A stream that ends at a byte boundary followed by more bits packs to the two packings in order. -/
theorem pack_append_of_aligned {as bs : List Bool} (h : as.length % 8 = 0) : pack (as ++ bs) = pack as ++ pack bs := by
  symm
  apply eq_pack
  · simp [ceil8]; omega
  · intro p hp
    by_cases hlt : p < as.length
    · rw [bitAt_append_left (by simp [ceil8]; omega), bitAt_pack, List.getD_append _ _ _ _ hlt]
    · have hl : 8 * (pack as).length = as.length := by simp [ceil8]; omega
      rw [bitAt_append_right (by omega), bitAt_pack, hl, List.getD_append_right _ _ _ _ (by omega)]

/-! ### Fields -/

@[simp] theorem fieldAt_zero (bs : List Byte) (p : Nat) : fieldAt bs p 0 = 0 := rfl

/-- A field's last bit is its least significant. -/
theorem fieldAt_succ (bs : List Byte) (p w : Nat) :
    fieldAt bs p (w + 1) = 2 * fieldAt bs p w + (bitAt bs (p + w)).toNat := by
  simp only [fieldAt, List.range_succ, List.map_append, List.sum_append, List.map_cons, List.map_nil, List.sum_cons,
    List.sum_nil]
  have h : ((List.range w).map (fun i => (bitAt bs (p + i)).toNat <<< (w + 1 - 1 - i))).sum =
      2 * ((List.range w).map (fun i => (bitAt bs (p + i)).toNat <<< (w - 1 - i))).sum := by
    rw [← List.sum_map_mul_left]
    congr 1
    apply List.map_congr_left
    intro i hi
    have hlt := List.mem_range.mp hi
    rw [show w + 1 - 1 - i = (w - 1 - i) + 1 by omega, Nat.shiftLeft_eq, Nat.shiftLeft_eq, Nat.pow_succ]
    ring
  rw [h]
  simp

theorem fieldAt_lt (bs : List Byte) (p w : Nat) : fieldAt bs p w < 2 ^ w := by
  induction w with
  | zero => simp
  | succ w ih =>
    rw [fieldAt_succ, Nat.pow_succ]
    have := Bool.toNat_le (bitAt bs (p + w))
    omega

/-- A field splits into its first a bits and its last b. -/
theorem fieldAt_add (bs : List Byte) (p a b : Nat) :
    fieldAt bs p (a + b) = fieldAt bs p a * 2 ^ b + fieldAt bs (p + a) b := by
  induction b with
  | zero => simp
  | succ b ih =>
    rw [← Nat.add_assoc, fieldAt_succ, ih, fieldAt_succ, Nat.pow_succ, Nat.add_assoc p a b]
    ring

/-- Two sequences with the same bits in a range have the same field there. -/
theorem fieldAt_congr {as bs : List Byte} {p q w : Nat} (h : ∀ i, i < w → bitAt as (p + i) = bitAt bs (q + i)) :
    fieldAt as p w = fieldAt bs q w := by
  unfold fieldAt
  congr 1
  apply List.map_congr_left
  intro i hi
  rw [h i (List.mem_range.mp hi)]

/-- The bits of a value read back as a field are the value masked to the width. -/
theorem fieldAt_of_bitsOf {bs : List Byte} {p w v : Nat}
    (h : ∀ i, i < w → bitAt bs (p + i) = (bitsOf v w).getD i false) : fieldAt bs p w = v % 2 ^ w := by
  induction w generalizing p with
  | zero => simp [Nat.mod_one]
  | succ w ih =>
    have h0 : bitAt bs p = v.testBit w := by simpa [bitsOf] using h 0 (by omega)
    have hr : fieldAt bs (p + 1) w = v % 2 ^ w := by
      apply ih
      intro i hi
      have := h (i + 1) (by omega)
      rw [bitsOf, List.getD_cons_succ] at this
      rw [← this]
      congr 1
      omega
    have h1 : fieldAt bs p 1 = (bitAt bs p).toNat := by rw [fieldAt_succ]; simp
    rw [Nat.add_comm w 1, fieldAt_add, hr, h1, h0, Nat.add_comm 1 w, Nat.mod_pow_succ, Nat.toNat_testBit]
    ring

/-- A whole byte read as a field. -/
theorem fieldAt_byte {bs : List Byte} {k : Nat} {b : Byte} (h : bs[k]? = some b) : fieldAt bs (8 * k) 8 = b.toNat := by
  rw [fieldAt_of_bitsOf (v := b.toNat)]
  · exact Nat.mod_eq_of_lt b.isLt
  · intro i hi
    have h1 : (8 * k + i) / 8 = k := by omega
    have h2 : (8 * k + i) % 8 = i := by omega
    rw [List.getD_eq_getElem?_getD, bitsOf_getElem? _ _ _ hi]
    simp [bitAt, h1, h2, List.getD_eq_getElem?_getD, h, BitVec.getLsbD]

/-- A field of a packed stream is read from the stream. -/
theorem fieldAt_pack (pre post : List Bool) (v w : Nat) :
    fieldAt (pack (pre ++ bitsOf v w ++ post)) pre.length w = v % 2 ^ w := by
  apply fieldAt_of_bitsOf
  intro i hi
  rw [bitAt_pack, List.append_assoc, List.getD_append_right _ _ _ _ (by omega), Nat.add_sub_cancel_left,
    List.getD_append _ _ _ _ (by simpa using hi)]

end Sys2Proof.Machine
end

