-- ==== Sys2Proof/Laws/Reader.lean ====
section
/-! SUPPORT. What the reader's primitives do under its invariant: shifting a byte in, extracting a field, and the
whole loop of R_NEXT (41_bitfieldreader R132). -/

namespace Sys2Proof.Machine

theorem Reader.reset_inv (cap : Nat) : Reader.reset.Inv cap := by
  constructor <;> simp [Reader.reset]

/-- A pass just started meets the invariant (41_bitfieldreader R131). -/
theorem Reader.start_inv {cap : Nat} {w : BitVec 6} {bytes : List Byte} (h1 : Config.fwMin ≤ w.toNat)
    (h2 : w.toNat ≤ Config.fwMax) (h3 : bytes.length ≤ cap) : (Reader.start w bytes).Inv cap := by
  constructor <;> simp [Reader.start, Reader.bitCursor] <;> first | assumption | exact ⟨h1, h2⟩

/-- HELD grows by 8 without wrapping while it is below a legal FW. -/
theorem Reader.shiftIn_held_toNat {r : Reader} (b : Byte) (h : r.held.toNat < r.fw.toNat) (h2 : r.fw.toNat ≤ 32) :
    (r.shiftIn b).held.toNat = r.held.toNat + 8 := by
  rw [Reader.shiftIn_held, BitVec.toNat_add]
  simp; omega

/-- ACC takes a byte in without loss while HELD is below a legal FW (10_state R26). -/
theorem Reader.shiftIn_acc_toNat {r : Reader} (b : Byte) (hacc : r.acc.toNat < 2 ^ r.held.toNat)
    (h : r.held.toNat < 32) : (r.shiftIn b).acc.toNat = r.acc.toNat * 2 ^ 8 + b.toNat := by
  have hp : 2 ^ r.held.toNat ≤ 2 ^ 31 := Nat.pow_le_pow_right (by omega) (by omega)
  have hb := b.isLt
  rw [Reader.shiftIn_acc, BitVec.toNat_or, BitVec.toNat_shiftLeft, BitVec.toNat_setWidth, Nat.shiftLeft_eq,
    Nat.mod_eq_of_lt (by omega), Nat.mod_eq_of_lt (by omega), Nat.mul_comm, ← Nat.two_pow_add_eq_or_of_lt hb]

/-- Shifting a byte in keeps the invariant and BIT_CURSOR (41_bitfieldreader R132). -/
theorem Reader.shiftIn_inv {cap : Nat} {r : Reader} {b : Byte} (hi : r.Inv cap) (ha : r.phase = .active)
    (hb : r.src[r.ridx]? = some b) (hlt : r.held.toNat < r.fw.toNat) :
    (r.shiftIn b).Inv cap ∧ (r.shiftIn b).bitCursor = r.bitCursor := by
  obtain ⟨hf1, hf2⟩ := hi.fw_range (by simp [ha])
  have hf32 : r.fw.toNat ≤ 32 := hf2
  have hheld := Reader.shiftIn_held_toNat b hlt hf32
  have hacc := Reader.shiftIn_acc_toNat b hi.acc_lt (by omega)
  have hle := hi.held_le
  have hr : r.ridx < r.src.length := (List.getElem?_eq_some_iff.mp hb).1
  have hcur : (r.shiftIn b).bitCursor = r.bitCursor := by
    unfold Reader.bitCursor
    rw [hheld, Reader.shiftIn_ridx]
    omega
  refine ⟨?_, hcur⟩
  constructor
  · exact hi.src_le
  · exact hr
  · rw [hheld, Reader.shiftIn_ridx]; omega
  · rw [hheld, hacc, Nat.pow_add]
    have := hi.acc_lt
    have := b.isLt
    omega
  · rw [hheld, hacc, Reader.shiftIn_src, Reader.shiftIn_ridx,
      show 8 * (r.ridx + 1) - (r.held.toNat + 8) = 8 * r.ridx - r.held.toNat by omega, fieldAt_add, ← hi.acc_eq,
      show 8 * r.ridx - r.held.toNat + r.held.toNat = 8 * r.ridx by omega, fieldAt_byte hb]
  · intro _; exact ⟨hf1, hf2⟩
  · intro _; rw [hheld, Reader.shiftIn_fw]; omega
  · intro _; rw [hcur, Reader.shiftIn_fw]; exact hi.cursor_fields (by simp [ha])
  · intro h; simp [ha] at h
  · intro h; simp [ha] at h

/-- Extraction returns the field at BIT_CURSOR, moves BIT_CURSOR on by FW and keeps the invariant
(41_bitfieldreader R132). -/
theorem Reader.extract_spec {cap : Nat} {r : Reader} (hi : r.Inv cap) (ha : r.phase = .active)
    (hle : r.fw.toNat ≤ r.held.toNat) :
    r.extract.2 = ⟨.ok, .word (BitVec.ofNat 32 (fieldAt r.src r.bitCursor r.fw.toNat))⟩ ∧
      r.extract.1.Inv cap ∧ r.extract.1.bitCursor = r.bitCursor + r.fw.toNat := by
  obtain ⟨hf1, hf2⟩ := hi.fw_range (by simp [ha])
  have hf32 : r.fw.toNat ≤ 32 := hf2
  have hsh : (r.held - r.fw).toNat = r.held.toNat - r.fw.toNat := BitVec.toNat_sub_of_le hle
  have hheld := hi.held_le
  have hrange := hi.held_range (by simp [ha])
  have hsplit : r.acc.toNat = fieldAt r.src r.bitCursor r.fw.toNat * 2 ^ (r.held.toNat - r.fw.toNat) +
      fieldAt r.src (r.bitCursor + r.fw.toNat) (r.held.toNat - r.fw.toNat) := by
    rw [hi.acc_eq, ← fieldAt_add, Nat.add_sub_cancel' hle]
    rfl
  have hlow := fieldAt_lt r.src (r.bitCursor + r.fw.toNat) (r.held.toNat - r.fw.toNat)
  have hmod : r.acc.toNat % 2 ^ (r.held.toNat - r.fw.toNat) =
      fieldAt r.src (r.bitCursor + r.fw.toNat) (r.held.toNat - r.fw.toNat) := by
    rw [hsplit, Nat.mul_add_mod_self_right, Nat.mod_eq_of_lt hlow]
  have hdiv : r.acc.toNat / 2 ^ (r.held.toNat - r.fw.toNat) = fieldAt r.src r.bitCursor r.fw.toNat := by
    rw [hsplit, Nat.add_comm, Nat.add_mul_div_right _ _ (by positivity), Nat.div_eq_of_lt hlow, Nat.zero_add]
  have hcur : r.extract.1.bitCursor = r.bitCursor + r.fw.toNat := by
    unfold Reader.bitCursor
    rw [Reader.extract_held, Reader.extract_ridx, hsh]
    omega
  have hacc : r.extract.1.acc.toNat =
      fieldAt r.src (r.bitCursor + r.fw.toNat) (r.held.toNat - r.fw.toNat) := by
    rw [Reader.extract_acc, hsh, hmod, BitVec.toNat_ofNat, Nat.mod_eq_of_lt]
    exact lt_of_lt_of_le hlow (Nat.pow_le_pow_right (by omega) (by omega))
  refine ⟨?_, ?_, hcur⟩
  · simp only [Reader.extract, Response.mk.injEq, Data.word.injEq, true_and]
    apply BitVec.eq_of_toNat_eq
    rw [BitVec.toNat_setWidth, BitVec.toNat_ushiftRight, Nat.shiftRight_eq_div_pow, hsh, hdiv, BitVec.toNat_ofNat]
  · constructor
    · exact hi.src_le
    · exact hi.ridx_le
    · rw [Reader.extract_held, hsh, Reader.extract_ridx]; omega
    · rw [hacc, Reader.extract_held, hsh]; exact hlow
    · rw [hacc, Reader.extract_held, hsh, Reader.extract_src, Reader.extract_ridx]
      unfold Reader.bitCursor
      congr 1
      omega
    · intro _; exact ⟨hf1, hf2⟩
    · intro _; rw [Reader.extract_held, hsh, Reader.extract_fw]; omega
    · intro _
      rw [hcur, Reader.extract_fw]
      exact Nat.dvd_add (hi.cursor_fields (by simp [ha])) (Nat.dvd_refl _)
    · intro h; simp [ha] at h
    · intro h; simp [ha] at h

/-- The end of a pass keeps the invariant. -/
theorem Reader.exhaust_inv {cap : Nat} {r : Reader} (hi : r.Inv cap) (ha : r.phase = .active)
    (hend : r.ridx = r.src.length) (hlt : r.held.toNat < r.fw.toNat) : r.exhaust.1.Inv cap where
  src_le := hi.src_le
  ridx_le := hi.ridx_le
  held_le := hi.held_le
  acc_lt := hi.acc_lt
  acc_eq := hi.acc_eq
  fw_range := fun _ => hi.fw_range (by simp [ha])
  held_range := fun _ => hi.held_range (by simp [ha])
  cursor_fields := fun _ => hi.cursor_fields (by simp [ha])
  exhausted_short := fun _ => ⟨hend, hlt⟩
  idle_reset := by intro h; simp at h

/-- The loop of R_NEXT in a pass (41_bitfieldreader R132): a field where FW bits are left, else the end of the pass. -/
theorem Reader.pull_spec {cap : Nat} (rest : List Byte) (r : Reader) (hi : r.Inv cap) (ha : r.phase = .active)
    (hrest : rest = r.src.drop r.ridx) :
    (r.pull rest).1.Inv cap ∧ (r.pull rest).1.src = r.src ∧ (r.pull rest).1.fw = r.fw ∧
      (if r.bitCursor + r.fw.toNat ≤ 8 * r.src.length then
        (r.pull rest).2 = ⟨.ok, .word (BitVec.ofNat 32 (fieldAt r.src r.bitCursor r.fw.toNat))⟩ ∧
          (r.pull rest).1.phase = .active ∧ (r.pull rest).1.bitCursor = r.bitCursor + r.fw.toNat
      else
        (r.pull rest).2 = Response.only .done ∧ (r.pull rest).1.phase = .exhausted ∧
          (r.pull rest).1.bitCursor = r.bitCursor ∧ (r.pull rest).1.ridx = r.src.length) := by
  have hheld := hi.held_le
  have hridx := hi.ridx_le
  induction rest generalizing r with
  | nil =>
    have hend : r.ridx = r.src.length := by
      have := congrArg List.length hrest
      simp at this
      omega
    by_cases hle : r.fw.toNat ≤ r.held.toNat
    · obtain ⟨h1, h2, h3⟩ := Reader.extract_spec hi ha hle
      have hroom : r.bitCursor + r.fw.toNat ≤ 8 * r.src.length := by unfold Reader.bitCursor; omega
      simp only [Reader.pull, if_pos hle, if_pos hroom]
      exact ⟨h2, rfl, rfl, h1, ha, h3⟩
    · have hroom : ¬ r.bitCursor + r.fw.toNat ≤ 8 * r.src.length := by unfold Reader.bitCursor; omega
      simp only [Reader.pull, if_neg hle, if_neg hroom]
      exact ⟨Reader.exhaust_inv hi ha hend (by omega), rfl, rfl, rfl, rfl, rfl, hend⟩
  | cons b rest ih =>
    by_cases hle : r.fw.toNat ≤ r.held.toNat
    · obtain ⟨h1, h2, h3⟩ := Reader.extract_spec hi ha hle
      have hroom : r.bitCursor + r.fw.toNat ≤ 8 * r.src.length := by unfold Reader.bitCursor; omega
      simp only [Reader.pull, if_pos hle, if_pos hroom]
      exact ⟨h2, rfl, rfl, h1, ha, h3⟩
    · have hb : r.src[r.ridx]? = some b := by
        have := congrArg (fun l => l[0]?) hrest
        simpa using this.symm
      have hnext : rest = (r.shiftIn b).src.drop (r.shiftIn b).ridx := by
        have := congrArg (List.drop 1) hrest
        simpa [Nat.add_comm] using this
      obtain ⟨hinv, hcur⟩ := Reader.shiftIn_inv hi ha hb (by omega)
      have h := ih (r.shiftIn b) hinv ha hnext hinv.held_le hinv.ridx_le
      rw [hcur] at h
      simp only [Reader.pull, if_neg hle]
      exact h

/-- The loop of R_NEXT with FW bits left shifts in the fewest bytes that make `HELD >= FW`, and takes FW bits from HELD
(41_bitfieldreader R132). -/
theorem Reader.pull_counts {cap : Nat} (rest : List Byte) (r : Reader) (hi : r.Inv cap) (ha : r.phase = .active)
    (hrest : rest = r.src.drop r.ridx) (hroom : r.bitCursor + r.fw.toNat ≤ 8 * r.src.length) :
    (r.pull rest).1.ridx = r.ridx + ceil8 (r.fw.toNat - r.held.toNat) ∧
      (r.pull rest).1.held.toNat + r.fw.toNat = r.held.toNat + 8 * ceil8 (r.fw.toNat - r.held.toNat) := by
  have hheld := hi.held_le
  induction rest generalizing r with
  | nil =>
    have hend : r.src.length ≤ r.ridx := by simpa using hrest.symm
    have hle : r.fw.toNat ≤ r.held.toNat := by unfold Reader.bitCursor at hroom; omega
    rw [Reader.pull, if_pos hle, Reader.extract_ridx, Reader.extract_held, BitVec.toNat_sub_of_le hle]
    simp only [ceil8]
    omega
  | cons b rest ih =>
    by_cases hle : r.fw.toNat ≤ r.held.toNat
    · rw [Reader.pull, if_pos hle, Reader.extract_ridx, Reader.extract_held, BitVec.toNat_sub_of_le hle]
      simp only [ceil8]
      omega
    · have hb : r.src[r.ridx]? = some b := by
        have := congrArg (fun l => l[0]?) hrest
        simpa using this.symm
      have hnext : rest = (r.shiftIn b).src.drop (r.shiftIn b).ridx := by
        have := congrArg (List.drop 1) hrest
        simpa [Nat.add_comm] using this
      obtain ⟨hinv, hcur⟩ := Reader.shiftIn_inv hi ha hb (by omega)
      have h := ih (r.shiftIn b) hinv ha hnext (by rw [hcur]; exact hroom) hinv.held_le
      have h2 : r.fw.toNat ≤ 32 := (hi.fw_range (by simp [ha])).2
      rw [Reader.shiftIn_held_toNat b (by omega) h2, Reader.shiftIn_ridx, Reader.shiftIn_fw] at h
      rw [Reader.pull, if_neg hle]
      simp only [ceil8] at h ⊢
      omega

end Sys2Proof.Machine
end

