-- ==== Sys2Proof/Laws/Writer.lean ====
section
/-! SUPPORT. What the writer's primitives do to a packed stream, and that they keep the writer's invariant (the
canonical form of its storage: length, zero tail, range). -/

namespace Sys2Proof.Machine

/-! ### OR into the last byte -/

@[simp] theorem orLast_length (b : Byte) (bs : List Byte) : (orLast b bs).length = bs.length := by
  induction bs with
  | nil => rfl
  | cons x rest ih => cases rest with
    | nil => rfl
    | cons y rest => simpa [orLast] using ih

@[simp] theorem orLast_append_singleton (b x : Byte) (init : List Byte) :
    orLast b (init ++ [x]) = init ++ [x ||| b] := by
  induction init with
  | nil => rfl
  | cons y init ih => cases init with
    | nil => rfl
    | cons z init => simpa [orLast] using ih

/-- OR into the last byte sets bits only there. -/
theorem bitAt_orLast (b : Byte) (bs : List Byte) (p : Nat) (h : p < 8 * bs.length) :
    bitAt (orLast b bs) p = (bitAt bs p || (decide (p / 8 + 1 = bs.length) && b.getLsbD (7 - p % 8))) := by
  obtain rfl | ⟨init, x, rfl⟩ := List.eq_nil_or_concat bs
  · simp at h
  · rw [List.concat_eq_append] at h ⊢
    rw [orLast_append_singleton]
    simp only [List.length_append, List.length_singleton] at h ⊢
    by_cases hp : p < 8 * init.length
    · rw [bitAt_append_left hp, bitAt_append_left hp]
      have : ¬ p / 8 + 1 = init.length + 1 := by omega
      simp only [this, decide_false, Bool.false_and, Bool.or_false]
    · rw [bitAt_append_right (by omega), bitAt_append_right (by omega), bitAt_singleton _ _ (by omega),
        bitAt_singleton _ _ (by omega)]
      have h1 : p / 8 + 1 = init.length + 1 := by omega
      have h2 : p - 8 * init.length = p % 8 := by omega
      simp [h1, h2]

/-! ### PutBit and PutBytes on a packed stream -/

theorem bitMask_getLsbD (b : Bool) (off i : Nat) (hi : i < 8) :
    ((if b then 1#8 else 0#8) <<< (7 - off)).getLsbD (7 - i) = (b && decide (7 - i = 7 - off)) := by
  cases b
  · simp
  · simp only [BitVec.getLsbD_shiftLeft, if_true, BitVec.getLsbD_one, Bool.true_and]
    by_cases h : 7 - i = 7 - off
    · simp [h]; omega
    · simp [h]; omega

/-- PutBit appends one bit to the stream (40_bitwriter R103). -/
theorem Writer.putBit_pack (ph : WPhase) (bits : List Bool) (b : Bool) :
    Writer.putBit b ⟨ph, pack bits, bits.length⟩ = ⟨ph, pack (bits ++ [b]), bits.length + 1⟩ := by
  unfold Writer.putBit
  simp only [Writer.mk.injEq, true_and, and_true]
  by_cases h : bits.length % 8 = 0
  · rw [if_pos h, orLast_append_singleton, pack_append_of_aligned h, h]
    congr 1
    apply eq_pack
    · simp [ceil8]
    · intro p hp
      simp only [List.length_singleton] at hp
      rw [bitAt_singleton _ _ (by omega)]
      have hm := bitMask_getLsbD b 0 p (by omega)
      rw [BitVec.getLsbD_or, hm]
      by_cases h0 : p = 0
      · simp [h0]
      · have : ¬ 7 - p = 7 - 0 := by omega
        rw [List.getD_eq_default _ _ (by simp; omega)]
        simp [this]
  · rw [if_neg h]
    apply eq_pack
    · simp [ceil8]; omega
    · intro p hp
      rw [orLast_length] at hp
      rw [bitAt_orLast _ _ _ hp, bitAt_pack, bitMask_getLsbD _ _ _ (by omega)]
      rw [pack_length] at hp ⊢
      unfold ceil8 at hp ⊢
      rcases Nat.lt_trichotomy p bits.length with hlt | heq | hgt
      · rw [List.getD_append _ _ _ _ hlt]
        have : ¬ (p / 8 + 1 = (bits.length + 7) / 8 ∧ 7 - p % 8 = 7 - bits.length % 8) := by omega
        rw [not_and] at this
        by_cases h1 : p / 8 + 1 = (bits.length + 7) / 8
        · simp [this h1]
        · simp [h1]
      · subst heq
        have h1 : bits.length / 8 + 1 = (bits.length + 7) / 8 := by omega
        rw [List.getD_append_right _ _ _ _ (by omega), List.getD_eq_default bits _ (by omega)]
        simp [h1]
      · have : ¬ 7 - p % 8 = 7 - bits.length % 8 := by omega
        rw [List.getD_append_right _ _ _ _ (by omega), List.getD_eq_default bits _ (by omega),
          List.getD_eq_default _ _ (by simp; omega)]
        simp [this]

theorem Writer.putBits_pack (ph : WPhase) (bits more : List Bool) :
    Writer.putBits more ⟨ph, pack bits, bits.length⟩ = ⟨ph, pack (bits ++ more), bits.length + more.length⟩ := by
  induction more generalizing bits with
  | nil => simp [Writer.putBits]
  | cons b more ih =>
    have h := ih (bits ++ [b])
    simp only [List.length_append, List.length_singleton] at h
    rw [Writer.putBits, List.foldl_cons, Writer.putBit_pack, ← Writer.putBits, h]
    simp; omega

/-- W_INT's loop is PutBit of `BitsOf(value, w)` (40_bitwriter R104). -/
theorem Writer.putInt_eq_putBits (value : BitVec 64) (w : Nat) (wr : Writer) :
    wr.putInt value w = wr.putBits (bitsOf value.toNat w) := by
  induction w generalizing wr with
  | zero => rfl
  | succ w ih => rw [Writer.putInt, ih]; rfl

/-- One byte of PutBytes off a byte boundary (40_bitwriter R106). -/
theorem splitByte_pack (bits : List Bool) (b : Byte) (h : bits.length % 8 ≠ 0) :
    splitByte (bits.length % 8) (pack bits) b = pack (bits ++ bitsOf b.toNat 8) := by
  have hbyte : ∀ i, i < 8 → (bitsOf b.toNat 8).getD i false = b.getLsbD (7 - i) := by
    intro i hi
    rw [List.getD_eq_getElem?_getD, bitsOf_getElem? _ _ _ hi]
    simp [BitVec.getLsbD]
  unfold splitByte
  apply eq_pack
  · simp [ceil8]; omega
  · intro p hp
    have hl : (orLast (b >>> (bits.length % 8)) (pack bits)).length = (bits.length + 7) / 8 := by
      rw [orLast_length, pack_length, ceil8]
    rw [List.length_append, hl, List.length_singleton] at hp
    by_cases hin : p < 8 * ((bits.length + 7) / 8)
    · rw [bitAt_append_left (by omega), bitAt_orLast _ _ _ (by rw [pack_length, ceil8]; omega), bitAt_pack, pack_length,
        ceil8, BitVec.getLsbD_ushiftRight]
      by_cases hlt : p < bits.length
      · rw [List.getD_append _ _ _ _ hlt]
        by_cases hlast : p / 8 + 1 = (bits.length + 7) / 8
        · have hz : b.getLsbD (bits.length % 8 + (7 - p % 8)) = false := BitVec.getLsbD_of_ge _ _ (by omega)
          simp [hz]
        · simp [hlast]
      · have hlast : p / 8 + 1 = (bits.length + 7) / 8 := by omega
        rw [List.getD_append_right _ _ _ _ (by omega), List.getD_eq_default bits _ (by omega), hbyte _ (by omega)]
        simp only [hlast, decide_true, Bool.true_and, Bool.false_or]
        congr 1
        omega
    · rw [bitAt_append_right (by omega), bitAt_singleton _ _ (by omega), BitVec.getLsbD_shiftLeft,
        List.getD_append_right _ _ _ _ (by omega)]
      by_cases hlt : p - bits.length < 8
      · rw [hbyte _ hlt]
        have h1 : ¬ (7 - (p - 8 * (orLast (b >>> (bits.length % 8)) (pack bits)).length) < 8 - bits.length % 8) := by omega
        have h2 : 7 - (p - 8 * (orLast (b >>> (bits.length % 8)) (pack bits)).length) < 8 := by omega
        simp only [h1, h2, decide_true, decide_false, Bool.true_and, Bool.not_false]
        congr 1
        omega
      · rw [List.getD_eq_default _ _ (by simp; omega)]
        have h1 : 7 - (p - 8 * (orLast (b >>> (bits.length % 8)) (pack bits)).length) < 8 - bits.length % 8 := by omega
        simp only [h1, decide_true, Bool.not_true, Bool.and_false, Bool.false_and]

theorem splitBytes_pack (bytes : List Byte) (bits : List Bool) (h : bits.length % 8 ≠ 0) :
    bytes.foldl (splitByte (bits.length % 8)) (pack bits) = pack (bits ++ bytesToBits bytes) := by
  induction bytes generalizing bits with
  | nil => simp
  | cons b bytes ih =>
    have hm : (bits ++ bitsOf b.toNat 8).length % 8 = bits.length % 8 := by simp
    have hs := ih (bits ++ bitsOf b.toNat 8) (by omega)
    rw [hm] at hs
    rw [List.foldl_cons, splitByte_pack _ _ h, hs, bytesToBits_cons, List.append_assoc]

/-- PutBytes appends the bits of its bytes to the stream (40_bitwriter R106). -/
theorem Writer.putBytes_pack (ph : WPhase) (bits : List Bool) (bytes : List Byte) :
    Writer.putBytes bytes ⟨ph, pack bits, bits.length⟩ =
      ⟨ph, pack (bits ++ bytesToBits bytes), bits.length + 8 * bytes.length⟩ := by
  unfold Writer.putBytes
  simp only [Writer.mk.injEq, true_and, and_true]
  by_cases h : bits.length % 8 = 0
  · rw [if_pos h, pack_append_of_aligned h, pack_bytesToBits]
  · rw [if_neg h, splitBytes_pack bytes bits h]

/-! ### The invariant -/

theorem Writer.reset_inv (cap : Nat) : Writer.reset.Inv cap where
  length_eq := by decide
  tail_zero := by intro p _ h; simp [Writer.reset] at h
  bitlen_le := by simp [Writer.reset]
  finished_empty := by simp [Writer.reset]

/-- An open writer that holds a packed stream within the capacity meets the invariant. -/
theorem Writer.inv_of_pack {cap : Nat} {bits : List Bool} (h : bits.length ≤ 8 * cap) :
    Writer.Inv cap ⟨.opened, pack bits, bits.length⟩ where
  length_eq := pack_length bits
  tail_zero := by
    intro p hp _
    change bitAt (pack bits) p = false
    rw [bitAt_pack, List.getD_eq_default _ _ hp]
  bitlen_le := h
  finished_empty := by simp

/-- A writer that meets the invariant holds a packed stream (10_state R23). -/
theorem Writer.Inv.exists_pack {cap : Nat} {w : Writer} (h : w.Inv cap) :
    ∃ bits : List Bool, w = ⟨w.phase, pack bits, bits.length⟩ := by
  have hlen := h.length_eq
  refine ⟨(List.range w.bitlen).map (bitAt w.buf), ?_⟩
  have hb : w.buf = pack ((List.range w.bitlen).map (bitAt w.buf)) := by
    apply eq_pack
    · simpa using hlen
    · intro p hp
      by_cases hlt : p < w.bitlen
      · simp [List.getD_eq_getElem?_getD, hlt]
      · rw [List.getD_eq_default _ _ (by simp; omega)]
        exact h.tail_zero p (by omega) hp
  obtain ⟨ph, buf, bl⟩ := w
  simp only [Writer.mk.injEq, true_and, List.length_map, List.length_range, and_true]
  exact hb

end Sys2Proof.Machine
end

