-- ==== Sys2Proof/Laws/Ops.lean ====
section
/-! SUPPORT. What the shared operations of the machine can do: answering a command, taking a command from the ones in
flight, and the order of checks of the appending commands. -/

namespace Sys2Proof.Machine

/-! ### Answering -/

theorem State.ServesWriter.hasPort {s : State} {k : Nat} {w : Writer} (h : s.ServesWriter k w) :
    s.hasPort s.serving = true := by
  rw [h.1]
  simpa using (List.getElem?_eq_some_iff.mp h.2).1

theorem State.ServesReader.hasPort {s : State} {k : Nat} {r : Reader} (h : s.ServesReader k r) :
    s.hasPort s.serving = true := by
  rw [h.1]
  simpa using (List.getElem?_eq_some_iff.mp h.2).1

/-- At an existing writer a writer command changes that writer's registers and gives one response. -/
theorem State.onWriter_serves {s : State} {k : Nat} {w : Writer} (f : Writer → Writer × Response)
    (h : s.ServesWriter k w) : s.onWriter f = .next (s.writerResult k (f w).1 (f w).2) := by
  unfold State.onWriter
  rw [h.1]
  simp only [h.2]
  simp [State.respond, State.setWriter, State.writerResult, h.1]

/-- At an existing reader a reader command changes that reader's registers and gives one response. -/
theorem State.onReader_serves {s : State} {k : Nat} {r : Reader} (f : Reader → Reader × Response)
    (h : s.ServesReader k r) : s.onReader f = .next (s.readerResult k (f r).1 (f r).2) := by
  unfold State.onReader
  rw [h.1]
  simp only [h.2]
  simp [State.respond, State.setReader, State.readerResult, h.1]

theorem State.illegal_next {s t : State} (h : s.illegal = .next t) :
    s.hasPort s.serving = true ∧ t = s.respond (Response.only .illegalCommand) := by
  unfold State.illegal State.answer at h
  split at h
  · exact ⟨by assumption, by simpa using h.symm⟩
  · cases h

theorem State.illegal_of_hasPort {s : State} (h : s.hasPort s.serving = true) :
    s.illegal = .next (s.respond (Response.only .illegalCommand)) := by
  unfold State.illegal State.answer
  rw [if_pos h]

/-- Everything a writer command can do. -/
theorem State.onWriter_next {s t : State} {f : Writer → Writer × Response} (h : s.onWriter f = .next t) :
    (∃ k w, s.ServesWriter k w ∧ t = s.writerResult k (f w).1 (f w).2) ∨
      (∃ k, s.serving = .reader k ∧ s.hasPort (.reader k) = true ∧ t = s.respond (Response.only .illegalCommand)) := by
  cases hs : s.serving with
  | reader k =>
    have hi : s.illegal = .next t := by simpa [State.onWriter, hs] using h
    obtain ⟨hp, ht⟩ := State.illegal_next hi
    exact .inr ⟨k, rfl, by rw [← hs]; exact hp, ht⟩
  | writer k =>
    cases hw : s.writers[k]? with
    | none => simp [State.onWriter, hs, hw] at h
    | some w =>
      have hsv : s.ServesWriter k w := ⟨hs, hw⟩
      rw [State.onWriter_serves f hsv] at h
      exact .inl ⟨k, w, hsv, by simpa using h.symm⟩

/-- Everything a reader command can do. -/
theorem State.onReader_next {s t : State} {f : Reader → Reader × Response} (h : s.onReader f = .next t) :
    (∃ k r, s.ServesReader k r ∧ t = s.readerResult k (f r).1 (f r).2) ∨
      (∃ k, s.serving = .writer k ∧ s.hasPort (.writer k) = true ∧ t = s.respond (Response.only .illegalCommand)) := by
  cases hs : s.serving with
  | writer k =>
    have hi : s.illegal = .next t := by simpa [State.onReader, hs] using h
    obtain ⟨hp, ht⟩ := State.illegal_next hi
    exact .inr ⟨k, rfl, by rw [← hs]; exact hp, ht⟩
  | reader k =>
    cases hr : s.readers[k]? with
    | none => simp [State.onReader, hs, hr] at h
    | some r =>
      have hsv : s.ServesReader k r := ⟨hs, hr⟩
      rw [State.onReader_serves f hsv] at h
      exact .inl ⟨k, r, hsv, by simpa using h.symm⟩

/-! ### The commands as functions of one instance -/

/-- What a writer command does to a writer; the reader commands have nothing here. -/
def writerEffect (cap : Nat) : Instr → Writer → Writer × Response
  | .wNew => Writer.cmdNew
  | .wBit b => Writer.cmdBit cap b
  | .wInt w value => Writer.cmdInt cap w value
  | .wBytes bytes => Writer.cmdBytes cap bytes
  | .wStr f text => Writer.cmdStr cap f text
  | .wFinish => Writer.cmdFinish
  | .rInit _ _ => fun w => (w, Response.only .illegalCommand)
  | .rNext => fun w => (w, Response.only .illegalCommand)

/-- What a reader command does to a reader; the writer commands have nothing here. -/
def readerEffect (cap : Nat) : Instr → Reader → Reader × Response
  | .rInit w bytes => Reader.cmdInit cap w bytes
  | .rNext => Reader.cmdNext
  | .wNew | .wBit _ | .wInt _ _ | .wBytes _ | .wStr _ _ | .wFinish => fun r => (r, Response.only .illegalCommand)

theorem exec_of_writer {i : Instr} (s : State) (h : i.engine = .writer) :
    exec i s = s.onWriter (writerEffect s.params.wbufBytes i) := by
  cases i <;> first | rfl | cases h

theorem exec_of_reader {i : Instr} (s : State) (h : i.engine = .reader) :
    exec i s = s.onReader (readerEffect s.params.rbufBytes i) := by
  cases i <;> first | rfl | cases h

/-- Everything a command can do: it changes the instance it is served at and answers once, or it is at a port of the
other kind and is only answered with ILLEGAL_COMMAND. -/
theorem exec_next {i : Instr} {s t : State} (h : exec i s = .next t) :
    (∃ k w, s.ServesWriter k w ∧ t = s.writerResult k (writerEffect s.params.wbufBytes i w).1
        (writerEffect s.params.wbufBytes i w).2) ∨
      (∃ k r, s.ServesReader k r ∧ t = s.readerResult k (readerEffect s.params.rbufBytes i r).1
        (readerEffect s.params.rbufBytes i r).2) := by
  cases he : i.engine with
  | writer =>
    rw [exec_of_writer s he] at h
    rcases State.onWriter_next h with h | ⟨k, hs, hp, rfl⟩
    · exact .inl h
    · have hk : k < s.readers.length := by simpa using hp
      have hsv : s.ServesReader k s.readers[k] := ⟨hs, by simp [hk]⟩
      refine .inr ⟨k, s.readers[k], hsv, ?_⟩
      have hid : readerEffect s.params.rbufBytes i s.readers[k] = (s.readers[k], Response.only .illegalCommand) := by
        cases i <;> first | rfl | cases he
      simp [hid, State.readerResult, State.respond, hs]
  | reader =>
    rw [exec_of_reader s he] at h
    rcases State.onReader_next h with h | ⟨k, hs, hp, rfl⟩
    · exact .inr h
    · have hk : k < s.writers.length := by simpa using hp
      have hsv : s.ServesWriter k s.writers[k] := ⟨hs, by simp [hk]⟩
      refine .inl ⟨k, s.writers[k], hsv, ?_⟩
      have hid : writerEffect s.params.wbufBytes i s.writers[k] = (s.writers[k], Response.only .illegalCommand) := by
        cases i <;> first | rfl | cases he
      simp [hid, State.writerResult, State.respond, hs]

/-- A command at an existing writer, whatever its kind. -/
theorem exec_at_writer {s : State} {k : Nat} {w : Writer} (i : Instr) (h : s.ServesWriter k w) :
    exec i s = .next (s.writerResult k (writerEffect s.params.wbufBytes i w).1
      (writerEffect s.params.wbufBytes i w).2) := by
  cases he : i.engine with
  | writer => rw [exec_of_writer s he, State.onWriter_serves _ h]
  | reader =>
    have hid : writerEffect s.params.wbufBytes i w = (w, Response.only .illegalCommand) := by
      cases i <;> first | rfl | cases he
    have hk := List.getElem?_eq_some_iff.mp h.2
    rw [exec_of_reader s he, hid]
    unfold State.onReader
    rw [h.1]
    simp only []
    rw [State.illegal_of_hasPort h.hasPort]
    obtain ⟨hk, rfl⟩ := hk
    simp [State.writerResult, State.respond, h.1]

/-- A command at an existing reader, whatever its kind. -/
theorem exec_at_reader {s : State} {k : Nat} {r : Reader} (i : Instr) (h : s.ServesReader k r) :
    exec i s = .next (s.readerResult k (readerEffect s.params.rbufBytes i r).1
      (readerEffect s.params.rbufBytes i r).2) := by
  cases he : i.engine with
  | reader => rw [exec_of_reader s he, State.onReader_serves _ h]
  | writer =>
    have hid : readerEffect s.params.rbufBytes i r = (r, Response.only .illegalCommand) := by
      cases i <;> first | rfl | cases he
    have hk := List.getElem?_eq_some_iff.mp h.2
    rw [exec_of_writer s he, hid]
    unfold State.onWriter
    rw [h.1]
    simp only []
    rw [State.illegal_of_hasPort h.hasPort]
    obtain ⟨hk, rfl⟩ := hk
    simp [State.readerResult, State.respond, h.1]

/-! ### The order of checks (40_bitwriter R100) -/

/-- Everything an appending command can do: refused with the writer unchanged, or its effect where it fits. -/
theorem Writer.append_cases (cap : Nat) (bad : Option Status) (k : Nat) (effect : Writer → Writer) (w : Writer) :
    (w.phase = .finished ∧ w.append cap bad k effect = (w, Response.only .writerFinished)) ∨
    (w.phase = .opened ∧ ∃ st, bad = some st ∧ w.append cap bad k effect = (w, Response.only st)) ∨
    (w.phase = .opened ∧ bad = none ∧ cap < ceil8 (w.bitlen + k) ∧
      w.append cap bad k effect = (w, Response.only .capacityExceeded)) ∨
    (w.phase = .opened ∧ bad = none ∧ ceil8 (w.bitlen + k) ≤ cap ∧
      w.append cap bad k effect = (effect w, Response.only .ok)) := by
  cases hp : w.phase with
  | finished => exact .inl ⟨rfl, by simp [Writer.append, hp]⟩
  | opened =>
    cases bad with
    | some st => exact .inr (.inl ⟨rfl, st, rfl, by simp [Writer.append, hp]⟩)
    | none =>
      by_cases hf : ceil8 (w.bitlen + k) ≤ cap
      · exact .inr (.inr (.inr ⟨rfl, rfl, hf, by simp [Writer.append, hp, Writer.fits, hf]⟩))
      · exact .inr (.inr (.inl ⟨rfl, rfl, by omega, by simp [Writer.append, hp, Writer.fits, hf]⟩))

/-! ### Commands in flight -/

/-- The command taken is the oldest at its port, and the others stay in their order. -/
theorem takeFirst_some {p : Port} {l left : List (Port × Transaction)} {t : Transaction}
    (h : takeFirst p l = some (t, left)) :
    ∃ before after, l = before ++ (p, t) :: after ∧ left = before ++ after ∧ ∀ x ∈ before, x.1 ≠ p := by
  induction l generalizing left with
  | nil => cases h
  | cons x rest ih =>
    obtain ⟨q, u⟩ := x
    unfold takeFirst at h
    by_cases hq : q = p
    · rw [if_pos hq] at h
      simp only [Option.some.injEq, Prod.mk.injEq] at h
      obtain ⟨rfl, rfl⟩ := h
      exact ⟨[], rest, by simp [hq], rfl, by simp⟩
    · rw [if_neg hq] at h
      cases hr : takeFirst p rest with
      | none => simp [hr] at h
      | some y =>
        obtain ⟨v, left'⟩ := y
        simp only [hr, Option.some.injEq, Prod.mk.injEq] at h
        obtain ⟨rfl, rfl⟩ := h
        obtain ⟨before, after, h1, h2, h3⟩ := ih hr
        refine ⟨(q, u) :: before, after, by rw [h1]; rfl, by rw [h2]; rfl, ?_⟩
        intro x hx
        rcases List.mem_cons.mp hx with rfl | hx
        · exact hq
        · exact h3 x hx

theorem takeFirst_none {p : Port} {l : List (Port × Transaction)} (h : ∀ x ∈ l, x.1 ≠ p) : takeFirst p l = none := by
  induction l with
  | nil => rfl
  | cons x rest ih =>
    obtain ⟨q, u⟩ := x
    unfold takeFirst
    rw [if_neg (h (q, u) (by simp)), ih (fun y hy => h y (by simp [hy]))]

@[simp] theorem takeFirst_self (p : Port) (t : Transaction) (l : List (Port × Transaction)) :
    takeFirst p ((p, t) :: l) = some (t, l) := by simp [takeFirst]

end Sys2Proof.Machine
end

