-- ==== Sys2Proof/Laws/Commands.lean ====
section
/-! SUPPORT. Everything a command can do to its instance, said once: the four outcomes of a writer command, the error
answers of a reader command, and that both keep their instance's invariant. -/

namespace Sys2Proof.Machine

theorem Writer.putBits_phase_bitlen (bits : List Bool) (w : Writer) :
    (w.putBits bits).phase = w.phase ∧ (w.putBits bits).bitlen = w.bitlen + bits.length := by
  induction bits generalizing w with
  | nil => exact ⟨rfl, rfl⟩
  | cons b bits ih =>
    obtain ⟨h1, h2⟩ := ih (w.putBit b)
    rw [Writer.putBits, List.foldl_cons, ← Writer.putBits, h1, h2, Writer.putBit_phase, Writer.putBit_bitlen,
      List.length_cons]
    exact ⟨rfl, by omega⟩

/-- The command was refused: the registers stay, with an error status and no data (60_exceptions R159). -/
def Refused (w : Writer) (x : Writer × Response) : Prop := x.1 = w ∧ x.2.status.isError = true ∧ x.2.data = .empty

/-- The command i appended its bits (40_bitwriter R103 to R108). -/
def Appended (cap : Nat) (i : Instr) (w : Writer) (x : Writer × Response) : Prop :=
  w.phase = .opened ∧ ceil8 (w.bitlen + i.appends.length) ≤ cap ∧ x.2 = Response.only .ok ∧ x.1.phase = .opened ∧
    x.1.bitlen = w.bitlen + i.appends.length ∧
    ∀ bits : List Bool, w = ⟨.opened, pack bits, bits.length⟩ →
      x.1 = ⟨.opened, pack (bits ++ i.appends), bits.length + i.appends.length⟩

/-- The outcomes of an appending command whose effect is known. -/
theorem Writer.append_outcome {cap : Nat} {bad : Option Status} {effect : Writer → Writer} {i : Instr} (w : Writer)
    (hbad : ∀ st, bad = some st → st.isError = true)
    (hbits : bad = none → (effect w).phase = w.phase ∧ (effect w).bitlen = w.bitlen + i.appends.length)
    (heff : bad = none → ∀ bits : List Bool, w = ⟨.opened, pack bits, bits.length⟩ →
      effect w = ⟨.opened, pack (bits ++ i.appends), bits.length + i.appends.length⟩)
    {k : Nat} (hk : bad = none → k = i.appends.length) :
    Refused w (w.append cap bad k effect) ∨ Appended cap i w (w.append cap bad k effect) := by
  rcases Writer.append_cases cap bad k effect w with ⟨_, h⟩ | ⟨_, st, hst, h⟩ | ⟨_, _, _, h⟩ | ⟨hp, hb, hc, h⟩
  · exact .inl (by rw [h]; exact ⟨rfl, rfl, rfl⟩)
  · exact .inl (by rw [h]; exact ⟨rfl, hbad st hst, rfl⟩)
  · exact .inl (by rw [h]; exact ⟨rfl, rfl, rfl⟩)
  · obtain ⟨h1, h2⟩ := hbits hb
    rw [hk hb] at hc
    exact .inr (by rw [h]; exact ⟨hp, hc, rfl, by rw [← hp]; exact h1, h2, heff hb⟩)

theorem intWidthCheck_isError {w : BitVec 7} {st : Status} (h : intWidthCheck w = some st) : st.isError = true := by
  unfold intWidthCheck at h
  split at h <;> cases h
  rfl

theorem textLengthCheck_isError {f : BitVec 12} {text : List Byte} {st : Status}
    (h : textLengthCheck f text = some st) : st.isError = true := by
  unfold textLengthCheck at h
  split at h <;> cases h
  rfl

theorem textLengthCheck_none {f : BitVec 12} {text : List Byte} (h : textLengthCheck f text = none) :
    text.length ≤ f.toNat := by
  unfold textLengthCheck at h
  split at h
  · cases h
  · omega

/-- Everything a writer command can do to a writer: it is refused, it is W_NEW, it is a W_FINISH that succeeds, or it
appends its bits. -/
theorem writerEffect_cases (cap : Nat) (i : Instr) (w : Writer) :
    Refused w (writerEffect cap i w) ∨
    (i = .wNew ∧ writerEffect cap i w = (⟨.opened, [], 0⟩, Response.only .ok)) ∨
    (i = .wFinish ∧ w.phase = .opened ∧ writerEffect cap i w = (⟨.finished, [], 0⟩, ⟨.ok, .bytes w.buf⟩)) ∨
    (i ≠ .wNew ∧ i ≠ .wFinish ∧ Appended cap i w (writerEffect cap i w)) := by
  have lift : ∀ {x : Writer × Response}, i ≠ .wNew → i ≠ .wFinish → Refused w x ∨ Appended cap i w x →
      Refused w x ∨ (i = .wNew ∧ x = (⟨.opened, [], 0⟩, Response.only .ok)) ∨
      (i = .wFinish ∧ w.phase = .opened ∧ x = (⟨.finished, [], 0⟩, ⟨.ok, .bytes w.buf⟩)) ∨
      (i ≠ .wNew ∧ i ≠ .wFinish ∧ Appended cap i w x) := by
    intro x h1 h2 h
    exact h.imp_right (fun h => .inr (.inr ⟨h1, h2, h⟩))
  cases i with
  | wNew => exact .inr (.inl ⟨rfl, rfl⟩)
  | wFinish =>
    cases hp : w.phase with
    | opened => exact .inr (.inr (.inl ⟨rfl, rfl, by simp [writerEffect, Writer.cmdFinish, hp, Writer.memRead]⟩))
    | finished => exact .inl (by simp [writerEffect, Writer.cmdFinish, hp, Refused, Status.isError])
  | wBit b =>
    refine lift (by simp) (by simp) (Writer.append_outcome w (by simp) (fun _ => ⟨rfl, rfl⟩) ?_ (fun _ => rfl))
    rintro _ bits rfl
    exact Writer.putBit_pack _ _ _
  | wInt width value =>
    refine lift (by simp) (by simp)
      (Writer.append_outcome w (fun st h => intWidthCheck_isError h) (fun _ => ?_) ?_
        (fun _ => by simp [Instr.appends]))
    · rw [Writer.putInt_eq_putBits]
      exact Writer.putBits_phase_bitlen _ _
    · rintro _ bits rfl
      rw [Writer.putInt_eq_putBits]
      exact Writer.putBits_pack _ _ _
  | wBytes bytes =>
    refine lift (by simp) (by simp)
      (Writer.append_outcome w (by simp) (fun _ => ⟨rfl, by simp [Instr.appends]⟩) ?_
        (fun _ => by simp [Instr.appends]))
    rintro _ bits rfl
    rw [Writer.putBytes_pack]
    simp [Instr.appends]
  | wStr f text =>
    refine lift (by simp) (by simp)
      (Writer.append_outcome w (fun st h => textLengthCheck_isError h) (fun _ => ⟨rfl, by simp [Instr.appends]⟩) ?_
        (fun h => by simp [Instr.appends, pad20_length (textLengthCheck_none h)]))
    rintro _ bits rfl
    rw [Writer.putBytes_pack]
    simp [Instr.appends]
  | rInit _ _ => exact .inl ⟨rfl, rfl, rfl⟩
  | rNext => exact .inl ⟨rfl, rfl, rfl⟩

/-- A command keeps the invariant of the writer it is carried out at. -/
theorem writerEffect_inv {cap : Nat} {i : Instr} {w : Writer} (h : w.Inv cap) : (writerEffect cap i w).1.Inv cap := by
  rcases writerEffect_cases cap i w with ⟨h1, _, _⟩ | ⟨_, h1⟩ | ⟨_, _, h1⟩ | ⟨_, _, hp, hc, _, _, _, h1⟩
  · rw [h1]; exact h
  · rw [h1]; exact Writer.reset_inv cap
  · rw [h1]; constructor <;> simp [ceil8]
  · obtain ⟨bits, hb⟩ := h.exists_pack
    rw [hp] at hb
    have hbl : w.bitlen = bits.length := by rw [hb]
    rw [h1 bits hb]
    rw [ceil8_le_iff, hbl] at hc
    have := Writer.inv_of_pack (cap := cap) (bits := bits ++ i.appends) (by simpa using hc)
    simpa using this

/-- A command keeps the invariant of the reader it is carried out at. -/
theorem readerEffect_inv {cap : Nat} {i : Instr} {r : Reader} (h : r.Inv cap) : (readerEffect cap i r).1.Inv cap := by
  cases i with
  | rInit w bytes =>
    simp only [readerEffect, Reader.cmdInit]
    split
    · exact h
    · rename_i h1
      split
      · exact h
      · rename_i h2
        unfold readerWidthCheck at h1
        unfold sourceLengthCheck at h2
        split at h1
        · cases h1
        · split at h2
          · cases h2
          · exact Reader.start_inv (by omega) (by omega) (by omega)
  | rNext =>
    simp only [readerEffect, Reader.cmdNext]
    split
    · exact h
    · exact h
    · rename_i hp
      exact (Reader.pull_spec _ r h hp rfl).1
  | wNew => exact h
  | wBit _ => exact h
  | wInt _ _ => exact h
  | wBytes _ => exact h
  | wStr _ _ => exact h
  | wFinish => exact h

/-- R_NEXT's loop never ends in an error. -/
theorem Reader.pull_isError (rest : List Byte) (r : Reader) : (r.pull rest).2.status.isError = false := by
  induction rest generalizing r with
  | nil => unfold Reader.pull; split <;> rfl
  | cons b rest ih =>
    unfold Reader.pull
    split
    · rfl
    · exact ih _

/-- A reader command answered with an error leaves the reader's registers and has no data (60_exceptions R159). -/
theorem readerEffect_error {cap : Nat} {i : Instr} {r : Reader}
    (h : (readerEffect cap i r).2.status.isError = true) :
    (readerEffect cap i r).1 = r ∧ (readerEffect cap i r).2.data = .empty := by
  cases i with
  | rInit w bytes =>
    simp only [readerEffect, Reader.cmdInit] at h ⊢
    cases h1 : readerWidthCheck w with
    | some st => exact ⟨rfl, rfl⟩
    | none =>
      cases h2 : sourceLengthCheck cap bytes with
      | some st => exact ⟨rfl, rfl⟩
      | none => simp [h1, h2, Status.isError] at h
  | rNext =>
    simp only [readerEffect, Reader.cmdNext] at h ⊢
    split
    · exact ⟨rfl, rfl⟩
    · exact ⟨rfl, rfl⟩
    · rename_i hp
      simp only [hp, Reader.pull_isError] at h
      cases h
  | wNew => exact ⟨rfl, rfl⟩
  | wBit _ => exact ⟨rfl, rfl⟩
  | wInt _ _ => exact ⟨rfl, rfl⟩
  | wBytes _ => exact ⟨rfl, rfl⟩
  | wStr _ _ => exact ⟨rfl, rfl⟩
  | wFinish => exact ⟨rfl, rfl⟩

end Sys2Proof.Machine
end

