-- ==== Sys2Proof/Laws/Decode.lean ====
section
/-! SUPPORT. The byte lanes of payload words: packing a span and unpacking it (30_encoding R79). -/

namespace Sys2Proof

@[simp] theorem payloadBytes_nil : payloadBytes [] = [] := rfl

@[simp] theorem payloadBytes_cons (w : Word) (p : List Word) : payloadBytes (w :: p) = wordBytes w ++ payloadBytes p :=
  rfl

@[simp] theorem payloadBytes_length (p : List Word) : (payloadBytes p).length = 4 * p.length := by
  induction p with
  | nil => rfl
  | cons w p ih => simp [wordBytes, ih]; omega

theorem wordBytes_wordOfBytes (a b c d : Byte) : wordBytes (wordOfBytes a b c d) = [a, b, c, d] := by
  unfold wordBytes wordOfBytes
  simp only [List.cons.injEq, and_true]
  refine ⟨?_, ?_, ?_, ?_⟩ <;>
  · apply BitVec.eq_of_getLsbD_eq
    intro i hi
    simp only [BitVec.getLsbD_extractLsb', BitVec.getLsbD_append, hi, decide_true, Bool.true_and]
    interval_cases i <;> simp

theorem wordOfBytes_wordBytes (w : Word) :
    wordOfBytes (w.extractLsb' 24 8) (w.extractLsb' 16 8) (w.extractLsb' 8 8) (w.extractLsb' 0 8) = w := by
  unfold wordOfBytes
  apply BitVec.eq_of_getLsbD_eq
  intro i hi
  simp only [BitVec.getLsbD_extractLsb', BitVec.getLsbD_append]
  interval_cases i <;> simp

/-- The lanes of a packed span: its bytes, then at most three zeros. -/
theorem payloadBytes_packWords (bytes : List Byte) :
    ∃ k, k < 4 ∧ payloadBytes (packWords bytes) = bytes ++ List.replicate k 0#8 := by
  match bytes with
  | [] => exact ⟨0, by omega, rfl⟩
  | [a] => exact ⟨3, by omega, by simp [packWords, wordBytes_wordOfBytes, List.replicate]⟩
  | [a, b] => exact ⟨2, by omega, by simp [packWords, wordBytes_wordOfBytes, List.replicate]⟩
  | [a, b, c] => exact ⟨1, by omega, by simp [packWords, wordBytes_wordOfBytes, List.replicate]⟩
  | a :: b :: c :: d :: rest =>
    obtain ⟨k, hk, h⟩ := payloadBytes_packWords rest
    exact ⟨k, hk, by simp [packWords, wordBytes_wordOfBytes, h]⟩

@[simp] theorem packWords_length (bytes : List Byte) : (packWords bytes).length = spanWords bytes.length := by
  obtain ⟨k, hk, h⟩ := payloadBytes_packWords bytes
  have := congrArg List.length h
  simp at this
  unfold spanWords
  omega

/-- Unpacking a packed span gives it back. -/
theorem unpack_packWords (bytes : List Byte) : unpack (packWords bytes) bytes.length = bytes := by
  obtain ⟨k, _, h⟩ := payloadBytes_packWords bytes
  simp [unpack, h]

/-- A packed span leaves its unused lanes zero. -/
theorem lanesZero_packWords (bytes : List Byte) : lanesZero (packWords bytes) bytes.length = true := by
  obtain ⟨k, _, h⟩ := payloadBytes_packWords bytes
  simp [lanesZero, h]

/-- Packing the lanes of a payload gives the payload back. -/
theorem packWords_payloadBytes (p : List Word) : packWords (payloadBytes p) = p := by
  induction p with
  | nil => rfl
  | cons w p ih => simp [wordBytes, packWords, wordOfBytes_wordBytes, ih]

/-- The opcode map read backwards (30_encoding R72). -/
def Opcode.bits : Opcode → BitVec 4
  | .wNew => 0x1#4
  | .wBit => 0x2#4
  | .wInt => 0x3#4
  | .wBytes => 0x4#4
  | .wStr => 0x5#4
  | .wFinish => 0x6#4
  | .rInit => 0x8#4
  | .rNext => 0x9#4

theorem Opcode.ofBits_eq_some {b : BitVec 4} {op : Opcode} : Opcode.ofBits b = some op ↔ b = op.bits := by
  constructor
  · intro h
    unfold Opcode.ofBits at h
    split_ifs at h <;> cases h <;> assumption
  · rintro rfl
    cases op <;> rfl

/-- A transaction that decodes, check by check (30_encoding R81 to R83). -/
theorem decode_ok {t : Transaction} {i : Instr} (h : decode t = .ok i) :
    ∃ op, opcodeOf t.header = some op ∧ t.header &&& op.reservedMask = 0#32 ∧
      t.payload.length = op.payloadWords t.header ∧
      (op.hasSpan = true → lanesZero t.payload (op.spanLength t.header) = true) ∧ i = op.instr t.header t.payload := by
  unfold decode at h
  split at h
  · cases h
  · rename_i op ho
    split_ifs at h with h1 h2 h3
    simp only [Except.ok.injEq] at h
    refine ⟨op, ho, by simpa using h1, by simpa using h2, ?_, h.symm⟩
    intro hs
    simpa [hs] using h3

/-! ### The fields of an encoded header -/

/-- A length that fits n bits, as a field of n bits. -/
theorem ofNat_eq_setWidth {n v : Nat} (hn : n ≤ 32) (h : v < 2 ^ n) :
    BitVec.ofNat 32 v = (BitVec.ofNat n v).setWidth 32 := by
  apply BitVec.eq_of_toNat_eq
  have h32 : 2 ^ n ≤ 2 ^ 32 := Nat.pow_le_pow_right (by omega) hn
  simp only [BitVec.toNat_ofNat, BitVec.toNat_setWidth]
  rw [Nat.mod_eq_of_lt h]

/-- FMT_I: opcode, reserved bits and width (30_encoding R75). -/
theorem header_wInt (w : BitVec 7) :
    opcodeBits (0x30000000#32 ||| w.setWidth 32) = 0x3#4 ∧
    (0x30000000#32 ||| w.setWidth 32) &&& Opcode.reservedMask .wInt = 0#32 ∧
    (0x30000000#32 ||| w.setWidth 32).extractLsb' 0 7 = w := by
  refine ⟨?_, ?_, ?_⟩ <;> revert w <;> decide

/-- FMT_L: opcode, reserved bits and length (30_encoding R76). -/
theorem header_wBytes (n : BitVec 24) :
    opcodeBits (0x40000000#32 ||| n.setWidth 32) = 0x4#4 ∧
    (0x40000000#32 ||| n.setWidth 32) &&& Opcode.reservedMask .wBytes = 0#32 ∧
    (0x40000000#32 ||| n.setWidth 32).extractLsb' 0 24 = n := by
  refine ⟨?_, ?_, ?_⟩ <;> apply BitVec.eq_of_getLsbD_eq <;> intro i hi <;>
    simp only [opcodeBits, Opcode.reservedMask, BitVec.getLsbD_extractLsb', BitVec.getLsbD_or, BitVec.getLsbD_and,
      BitVec.getLsbD_setWidth] <;> interval_cases i <;> simp

/-- FMT_S: opcode, reserved bits, text length and fixed width (30_encoding R77). -/
theorem header_wStr (l f : BitVec 12) :
    opcodeBits (0x50000000#32 ||| l.setWidth 32 <<< 12 ||| f.setWidth 32) = 0x5#4 ∧
    (0x50000000#32 ||| l.setWidth 32 <<< 12 ||| f.setWidth 32) &&& Opcode.reservedMask .wStr = 0#32 ∧
    (0x50000000#32 ||| l.setWidth 32 <<< 12 ||| f.setWidth 32).extractLsb' 12 12 = l ∧
    (0x50000000#32 ||| l.setWidth 32 <<< 12 ||| f.setWidth 32).extractLsb' 0 12 = f := by
  refine ⟨?_, ?_, ?_, ?_⟩ <;> apply BitVec.eq_of_getLsbD_eq <;> intro i hi <;>
    simp only [opcodeBits, Opcode.reservedMask, BitVec.getLsbD_extractLsb', BitVec.getLsbD_or, BitVec.getLsbD_and,
      BitVec.getLsbD_setWidth, BitVec.getLsbD_shiftLeft] <;> interval_cases i <;> simp

/-- FMT_R: opcode, field width and length (30_encoding R78). -/
theorem header_rInit (w : BitVec 6) (n : BitVec 22) :
    opcodeBits (0x80000000#32 ||| w.setWidth 32 <<< 22 ||| n.setWidth 32) = 0x8#4 ∧
    (0x80000000#32 ||| w.setWidth 32 <<< 22 ||| n.setWidth 32).extractLsb' 22 6 = w ∧
    (0x80000000#32 ||| w.setWidth 32 <<< 22 ||| n.setWidth 32).extractLsb' 0 22 = n := by
  refine ⟨?_, ?_, ?_⟩ <;> apply BitVec.eq_of_getLsbD_eq <;> intro i hi <;>
    simp only [opcodeBits, BitVec.getLsbD_extractLsb', BitVec.getLsbD_or, BitVec.getLsbD_setWidth,
      BitVec.getLsbD_shiftLeft] <;> interval_cases i <;> simp

/-- The opcode of a command, and the span length its header announces (30_encoding R72 to R78). -/
theorem encodeHeader_wBytes (bytes : List Byte) (h : bytes.length ≤ Config.wbytesNMax) :
    opcodeOf (encodeHeader (.wBytes bytes)) = some .wBytes ∧
      Opcode.spanLength (encodeHeader (.wBytes bytes)) .wBytes = bytes.length := by
  have hlt : bytes.length < 2 ^ 24 := by unfold Config.wbytesNMax at h; omega
  obtain ⟨h1, _, h3⟩ := header_wBytes (BitVec.ofNat 24 bytes.length)
  rw [← ofNat_eq_setWidth (by omega) hlt] at h1 h3
  refine ⟨Opcode.ofBits_eq_some.mpr h1, ?_⟩
  simp only [Opcode.spanLength, encodeHeader]
  rw [h3, BitVec.toNat_ofNat, Nat.mod_eq_of_lt hlt]

theorem encodeHeader_wStr (f : BitVec 12) (text : List Byte) (h : text.length ≤ Config.wstrMax) :
    opcodeOf (encodeHeader (.wStr f text)) = some .wStr ∧
      Opcode.spanLength (encodeHeader (.wStr f text)) .wStr = text.length := by
  have hlt : text.length < 2 ^ 12 := by unfold Config.wstrMax at h; omega
  obtain ⟨h1, _, h3, _⟩ := header_wStr (BitVec.ofNat 12 text.length) f
  rw [← ofNat_eq_setWidth (by omega) hlt] at h1 h3
  refine ⟨Opcode.ofBits_eq_some.mpr h1, ?_⟩
  simp only [Opcode.spanLength, encodeHeader]
  rw [h3, BitVec.toNat_ofNat, Nat.mod_eq_of_lt hlt]

theorem encodeHeader_rInit (w : BitVec 6) (bytes : List Byte) (h : bytes.length ≤ Config.rinitNMax) :
    opcodeOf (encodeHeader (.rInit w bytes)) = some .rInit ∧
      Opcode.spanLength (encodeHeader (.rInit w bytes)) .rInit = bytes.length := by
  have hlt : bytes.length < 2 ^ 22 := by unfold Config.rinitNMax at h; omega
  obtain ⟨h1, _, h3⟩ := header_rInit w (BitVec.ofNat 22 bytes.length)
  rw [← ofNat_eq_setWidth (by omega) hlt] at h1 h3
  refine ⟨Opcode.ofBits_eq_some.mpr h1, ?_⟩
  simp only [Opcode.spanLength, encodeHeader]
  rw [h3, BitVec.toNat_ofNat, Nat.mod_eq_of_lt hlt]

theorem encodeHeader_wInt (w : BitVec 7) (value : BitVec 64) : opcodeOf (encodeHeader (.wInt w value)) = some .wInt :=
  Opcode.ofBits_eq_some.mpr (header_wInt w).1

end Sys2Proof
end

