-- ==== Sys2Proof/Laws/PerInstr.lean ====
section
/-! SUPPORT. A statement made per instruction: every command's encoding is framed by its own header
(30_encoding R85). -/

namespace Sys2Proof.Laws.Framing

/-- The payload of a well-formed command's encoding is as long as `PayloadWords` of its header says. -/
def Statement (i : Instr) : Prop :=
  i.wellFormed = true → (encode i).payload.length = payloadWords (encode i).header

theorem wNew : Statement .wNew := fun _ => by decide

theorem wBit (b : Bool) : Statement (.wBit b) := fun _ => by cases b <;> decide

theorem wInt (w : BitVec 7) (value : BitVec 64) : Statement (.wInt w value) := by
  intro _
  simp [encode, encodePayload, payloadWords, encodeHeader_wInt, Opcode.payloadWords]

theorem wBytes (bytes : List Byte) : Statement (.wBytes bytes) := by
  intro h
  obtain ⟨h1, h2⟩ := encodeHeader_wBytes bytes (by simpa [Instr.wellFormed] using h)
  simp [encode, encodePayload, payloadWords, h1, Opcode.payloadWords, h2]

theorem wStr (f : BitVec 12) (text : List Byte) : Statement (.wStr f text) := by
  intro h
  obtain ⟨h1, h2⟩ := encodeHeader_wStr f text (by simpa [Instr.wellFormed] using h)
  simp [encode, encodePayload, payloadWords, h1, Opcode.payloadWords, h2]

theorem wFinish : Statement .wFinish := fun _ => by decide

theorem rInit (w : BitVec 6) (bytes : List Byte) : Statement (.rInit w bytes) := by
  intro h
  obtain ⟨h1, h2⟩ := encodeHeader_rInit w bytes (by simpa [Instr.wellFormed] using h)
  simp [encode, encodePayload, payloadWords, h1, Opcode.payloadWords, h2]

theorem rNext : Statement .rNext := fun _ => by decide

end Sys2Proof.Laws.Framing
end

