-- ==== Sys2Proof/Tests/Slice0.lean ====
section
/-! SUPPORT. The model's own tests. The expected results are the spec's: the vectors V<n> and fixtures X<n> of
95_test_vectors, or words written out from the formats of 30_encoding. After them, for every statement with
hypotheses, a state and operands that meet them all. -/

namespace Sys2Proof.Tests

open Sys2Proof.Machine

/-! ### Ill-formed commands are refused (30_encoding R88) -/

theorem test_wellFormed_long_bytes : (Instr.wBytes (List.replicate (2 ^ 24) 0#8)).wellFormed = false := by
  rw [Instr.wellFormed, List.length_replicate]; rfl

theorem test_wellFormed_long_text : (Instr.wStr 0#12 (List.replicate 4096 0#8)).wellFormed = false := by
  rw [Instr.wellFormed, List.length_replicate]; rfl

theorem test_wellFormed_long_source : (Instr.rInit 10#6 (List.replicate (2 ^ 22) 0#8)).wellFormed = false := by
  rw [Instr.wellFormed, List.length_replicate]; rfl

/-- Widths that only give an error status are well formed (R88). -/
theorem test_wellFormed_bad_width : (Instr.wInt 127#7 5#64).wellFormed = true := by decide

/-! ### Decoding of words written out from the formats -/

theorem test_decode_wnew : decode ⟨0x10000000#32, []⟩ = .ok .wNew := by decide
theorem test_decode_wbit : decode ⟨0x20000001#32, []⟩ = .ok (.wBit true) := by decide
theorem test_decode_wint : decode ⟨0x30000010#32, [0x80000000#32, 0x00004321#32]⟩ =
    .ok (.wInt 16#7 0x8000000000004321#64) := by decide
theorem test_decode_wbytes : decode ⟨0x40000005#32, [0x01020304#32, 0x05000000#32]⟩ =
    .ok (.wBytes [0x01#8, 0x02#8, 0x03#8, 0x04#8, 0x05#8]) := by decide
theorem test_decode_wstr : decode ⟨0x50003005#32, [0x41424300#32]⟩ = .ok (.wStr 5#12 [0x41#8, 0x42#8, 0x43#8]) := by
  decide
theorem test_decode_wfinish : decode ⟨0x60000000#32, []⟩ = .ok .wFinish := by decide
theorem test_decode_rinit : decode ⟨0x82800003#32, [0x748F0000#32]⟩ =
    .ok (.rInit 10#6 [0x74#8, 0x8F#8, 0x00#8]) := by decide
theorem test_decode_rnext : decode ⟨0x90000000#32, []⟩ = .ok .rNext := by decide

/-- V52, V57, V60, V62 and V61: each reason for ILLEGAL_COMMAND. -/
theorem test_decode_illegal :
    decode ⟨0x00000000#32, []⟩ = .error .reservedOpcode ∧ decode ⟨0x20000002#32, []⟩ = .error .reservedBit ∧
    decode ⟨0x30000008#32, [0x00000001#32]⟩ = .error .payloadLength ∧
    decode ⟨0x40000002#32, []⟩ = .error .payloadLength ∧
    decode ⟨0x40000003#32, [0x12345601#32]⟩ = .error .unusedLane := by decide

/-- A header of the opcode table with zero payload words is read as its row's command. -/
theorem test_decodeTableWord :
    decodeTableWord 32 0x3000000C = some (.wInt 12#7 0#64) ∧
    decodeTableWord 32 0x80400005 = some (.rInit 1#6 [0#8, 0#8, 0#8, 0#8, 0#8]) ∧
    decodeTableWord 32 0x70000000 = none := by decide

/-- R87: W_FINISH's three bytes as words. -/
theorem test_finishWords : finishWords [0x91#8, 0x23#8, 0x40#8] = [3#32, 0x91234000#32] := by decide

/-! ### One step of small machines -/

/-- One writer and one reader with the given registers, both capacities `cap`, serving port p. -/
def rig (cap : Nat) (w : Writer) (r : Reader) (p : Port) : State :=
  ⟨⟨cap, cap⟩, [w], [r], [], [], p, []⟩

/-- The rig with a transaction in flight at its port, about to be served. -/
def rigServing (cap : Nat) (w : Writer) (r : Reader) (p : Port) (t : Transaction) : State :=
  { rig cap w r p with agenda := [.serve p], inflight := [(p, t)] }

/-- The first writer and the responses after a step. -/
def writerAfter : Host.Outcome State Fault Refusal → Option (Option Writer × List (Port × Response))
  | .next s => some (s.writers[0]?, s.responses)
  | .fault _ => none
  | .refused _ => none

/-- The first reader and the responses after a step. -/
def readerAfter : Host.Outcome State Fault Refusal → Option (Option Reader × List (Port × Response))
  | .next s => some (s.readers[0]?, s.responses)
  | .fault _ => none
  | .refused _ => none

/-- A step of a writer in a 64-byte machine. -/
def writerStep (w : Writer) (t : Transaction) : Option (Option Writer × List (Port × Response)) :=
  writerAfter (step (rigServing 64 w Reader.reset (.writer 0) t))

/-- A step of a reader in a 64-byte machine. -/
def readerStep (r : Reader) (t : Transaction) : Option (Option Reader × List (Port × Response)) :=
  readerAfter (step (rigServing 64 Writer.reset r (.reader 0) t))

/-- V2. -/
theorem test_wnew_discards : writerStep ⟨.opened, [0x80#8], 1⟩ ⟨0x10000000#32, []⟩ =
    some (some ⟨.opened, [], 0⟩, [(.writer 0, ⟨.ok, .empty⟩)]) := by decide
/-- V37. -/
theorem test_wnew_reopens : writerStep ⟨.finished, [], 0⟩ ⟨0x10000000#32, []⟩ =
    some (some ⟨.opened, [], 0⟩, [(.writer 0, ⟨.ok, .empty⟩)]) := by decide
/-- V6: the last bit of a byte. -/
theorem test_wbit_fills_byte : writerStep ⟨.opened, [0xAA#8], 7⟩ ⟨0x20000001#32, []⟩ =
    some (some ⟨.opened, [0xAB#8], 8⟩, [(.writer 0, ⟨.ok, .empty⟩)]) := by decide
/-- V7: a 0 bit at a byte boundary still appends a byte. -/
theorem test_wbit_new_byte : writerStep ⟨.opened, [0xFF#8], 8⟩ ⟨0x20000000#32, []⟩ =
    some (some ⟨.opened, [0xFF#8, 0x00#8], 9⟩, [(.writer 0, ⟨.ok, .empty⟩)]) := by decide
/-- V9: across byte boundaries. -/
theorem test_wint_unaligned : writerStep ⟨.opened, [0x80#8], 1⟩ ⟨0x30000010#32, [0#32, 0x4321#32]⟩ =
    some (some ⟨.opened, [0xA1#8, 0x90#8, 0x80#8], 17⟩, [(.writer 0, ⟨.ok, .empty⟩)]) := by decide
/-- V14: truncation to the width. -/
theorem test_wint_truncates : writerStep ⟨.opened, [], 0⟩ ⟨0x30000004#32, [0#32, 0xA6#32]⟩ =
    some (some ⟨.opened, [0x60#8], 4⟩, [(.writer 0, ⟨.ok, .empty⟩)]) := by decide
/-- V24. -/
theorem test_wbytes_unaligned : writerStep ⟨.opened, [0xFE#8], 7⟩ ⟨0x40000003#32, [0x00FF0100#32]⟩ =
    some (some ⟨.opened, [0xFE#8, 0x01#8, 0xFE#8, 0x02#8], 31⟩, [(.writer 0, ⟨.ok, .empty⟩)]) := by decide
/-- V70 in a two-byte machine: an empty span fits a full buffer. -/
theorem test_wbytes_empty_fits :
    writerAfter (step (rigServing 2 ⟨.opened, [0xFF#8, 0xFF#8], 16⟩ Reader.reset (.writer 0) ⟨0x40000000#32, []⟩)) =
    some (some ⟨.opened, [0xFF#8, 0xFF#8], 16⟩, [(.writer 0, ⟨.ok, .empty⟩)]) := by decide
/-- V26. -/
theorem test_wstr_pads_unaligned : writerStep ⟨.opened, [0x80#8], 1⟩ ⟨0x50003005#32, [0x41424300#32]⟩ =
    some (some ⟨.opened, [0xA0#8, 0xA1#8, 0x21#8, 0x90#8, 0x10#8, 0x00#8], 41⟩, [(.writer 0, ⟨.ok, .empty⟩)]) := by
  decide
/-- V74 in a two-byte machine: FIELD_OVERFLOW comes before CAPACITY_EXCEEDED. -/
theorem test_wstr_overflow_first :
    writerAfter (step (rigServing 2 ⟨.opened, [0x80#8], 1⟩ Reader.reset (.writer 0)
      ⟨0x50003002#32, [0x41424300#32]⟩)) =
    some (some ⟨.opened, [0x80#8], 1⟩, [(.writer 0, ⟨.fieldOverflow, .empty⟩)]) := by decide
/-- V33. -/
theorem test_wfinish_hands_out : writerStep ⟨.opened, [0x90#8], 4⟩ ⟨0x60000000#32, []⟩ =
    some (some ⟨.finished, [], 0⟩, [(.writer 0, ⟨.ok, .bytes [0x90#8]⟩)]) := by decide
/-- V34. -/
theorem test_wfinish_once : writerStep ⟨.finished, [], 0⟩ ⟨0x60000000#32, []⟩ =
    some (some ⟨.finished, [], 0⟩, [(.writer 0, ⟨.writerFinished, .empty⟩)]) := by decide
/-- V36: the phase is checked before the width. -/
theorem test_phase_before_width : writerStep ⟨.finished, [], 0⟩ ⟨0x30000000#32, [0#32, 5#32]⟩ =
    some (some ⟨.finished, [], 0⟩, [(.writer 0, ⟨.writerFinished, .empty⟩)]) := by decide
/-- V72 in a two-byte machine. -/
theorem test_wint_capacity :
    writerAfter (step (rigServing 2 ⟨.opened, [0x80#8], 1⟩ Reader.reset (.writer 0) ⟨0x30000010#32, [0#32, 0xFFFF#32]⟩)) =
    some (some ⟨.opened, [0x80#8], 1⟩, [(.writer 0, ⟨.capacityExceeded, .empty⟩)]) := by decide
/-- V55: a reader's opcode at a writer's port. -/
theorem test_foreign_opcode : writerStep Writer.reset ⟨0x90000000#32, []⟩ =
    some (some Writer.reset, [(.writer 0, ⟨.illegalCommand, .empty⟩)]) := by decide
/-- R131's example. -/
theorem test_rinit_starts : readerStep Reader.reset ⟨0x82800003#32, [0x748F0000#32]⟩ =
    some (some ⟨.active, [0x74#8, 0x8F#8, 0x00#8], 10#6, 0, 0#40, 0#6⟩, [(.reader 0, ⟨.ok, .empty⟩)]) := by decide
/-- V49: width 33. -/
theorem test_rinit_width : readerStep Reader.reset ⟨0x88400001#32, [0xFF000000#32]⟩ =
    some (some Reader.reset, [(.reader 0, ⟨.invalidFieldWidth, .empty⟩)]) := by decide
/-- R132's example, its first step. -/
theorem test_rnext_first_field :
    readerStep ⟨.active, [0x74#8, 0x8F#8, 0x00#8], 10#6, 0, 0#40, 0#6⟩ ⟨0x90000000#32, []⟩ =
    some (some ⟨.active, [0x74#8, 0x8F#8, 0x00#8], 10#6, 2, 0x0F#40, 6#6⟩, [(.reader 0, ⟨.ok, .word 466#32⟩)]) := by
  decide
/-- R132's example, its last step. -/
theorem test_rnext_done :
    readerStep ⟨.active, [0x74#8, 0x8F#8, 0x00#8], 10#6, 3, 0#40, 4#6⟩ ⟨0x90000000#32, []⟩ =
    some (some ⟨.exhausted, [0x74#8, 0x8F#8, 0x00#8], 10#6, 3, 0#40, 4#6⟩, [(.reader 0, ⟨.done, .empty⟩)]) := by decide

/-- The first step after reset runs the instruction placed there. -/
theorem test_withFetchWord_runs :
    (match step (State.reset.withFetchWord 32 0x90000000) with
      | .next s => s.responses
      | .fault _ => []
      | .refused _ => []) = [(.reader 0, ⟨.readerIdle, .empty⟩)] := by decide

/-! ### Helper functions and the assembler -/

/-- X1. -/
theorem test_decodeAll_fixture : decodeAll [0x74#8, 0x8F#8, 0x00#8] 10 = [466#32, 240#32] := by decide
/-- X5. -/
theorem test_fieldAt_fixture :
    fieldAt [0x91#8, 0x23#8, 0x46#8, 0x56#8, 0x78#8, 0x43#8, 0x21#8, 0xA6#8, 0x98#8] 40 16 = 0x4321 := by decide
/-- V40: several fields from one byte. -/
theorem test_decodeAllLoop_bits : (Reader.reset.decodeAllLoop 1 1#6 [0xA5#8]).2 =
    [1#32, 0#32, 1#32, 0#32, 0#32, 1#32, 0#32, 1#32] := by decide
/-- 30_encoding R88. -/
theorem test_parse_wint : parseLine "wint 0x4321, 16".toList = some (.wint 0x4321 16) := by decide
/-- 30_encoding R88, R89; the text's bytes as in V31. -/
theorem test_parse_wstr : parseLine ("wstr ".toList ++ [Char.ofNat 34] ++ "ABCD".toList ++ [Char.ofNat 34] ++
    ", 3".toList) = some (.wstr [0x41, 0x42, 0x43, 0x44] 3) := by decide
/-- P1, steps 1 to 4. -/
theorem test_expand_wbits : expand (.wbits [true, false, false, true]) =
    some [.wBit true, .wBit false, .wBit false, .wBit true] := by decide

/-! ### Witnesses: hypotheses that can be met

Each theorem names the statement whose hypotheses it meets, clause by clause where there are several. -/

theorem test_witness_DecodeOfEncode : (Instr.wStr 7#12 [0x41#8, 0x42#8]).wellFormed = true := by decide

/-- For EncodeOfDecode and FramingRecoversTransaction. -/
theorem test_witness_EncodeOfDecode : decode ⟨0x40000001#32, [0xFF000000#32]⟩ = .ok (.wBytes [0xFF#8]) := by decide

/-- The last lane of a span, in its second word. -/
theorem test_witness_SpanBytesAreLanes : 4 < 5 ∧ 5 ≤ 4 * [0x01020304#32, 0x05000000#32].length ∧
    (unpack [0x01020304#32, 0x05000000#32] 5)[4]? = some 0x05#8 := by decide

/-- For every statement about a served command. -/
theorem test_witness_WillServe :
    (rigServing 1 Writer.reset Reader.reset (.writer 0) ⟨0x10000000#32, []⟩).WillServe (.writer 0)
      ⟨0x10000000#32, []⟩ [] [] ∧
    (rigServing 1 Writer.reset Reader.reset (.writer 0) ⟨0x10000000#32, []⟩).hasPort (.writer 0) = true :=
  ⟨⟨rfl, rfl⟩, rfl⟩

/-- Each cause of IllegalExactlyWhereMalformed, in R152's order. -/
theorem test_witness_Malformed :
    Malformed (.writer 0) ⟨0x70000000#32, []⟩ ∧ Malformed (.reader 0) ⟨0x60000000#32, []⟩ ∧
    Malformed (.writer 0) ⟨0x18000000#32, []⟩ ∧ Malformed (.writer 0) ⟨0x20000001#32, [0#32]⟩ ∧
    Malformed (.reader 0) ⟨0x80400003#32, [0x00000001#32]⟩ :=
  ⟨.inl (by decide), .inr (.inl (by decide)), .inr (.inr (.inl ⟨27, by decide⟩)),
    .inr (.inr (.inr (.inl (by decide)))), .inr (.inr (.inr (.inr ⟨.inr (.inr (by decide)), ⟨3, by decide⟩⟩)))⟩

/-- A transaction with none of the causes. -/
theorem test_witness_not_Malformed : ¬ Malformed (.writer 0) ⟨0x20000001#32, []⟩ := by
  have hbits : ∀ b, b < 28 → 1 ≤ b → (0x20000001#32).toNat.testBit b = false := by decide
  rintro (h | h | ⟨b, h1, h2, h3⟩ | h | ⟨h, _⟩)
  · exact absurd h (by decide)
  · exact absurd h (by decide)
  · have h1' : 1 ≤ b := h1
    rw [hbits b h2 h1'] at h3
    cases h3
  · exact absurd h (by decide)
  · unfold carriesSpan at h
    exact absurd h (by decide)

/-- ReservedAndForeignOpcodesRefused at the ends of its ranges. -/
theorem test_witness_ReservedOpcodes :
    opNumber ⟨0x00000001#32, []⟩ = 0 ∧ opNumber ⟨0x7FFFFFFF#32, []⟩ = 7 ∧ opNumber ⟨0xA0000000#32, []⟩ = 10 ∧
    opNumber ⟨0xFFFFFFFF#32, []⟩ = 15 ∧ opNumber ⟨0x80000000#32, []⟩ = 8 ∧ opNumber ⟨0x60000000#32, []⟩ = 6 := by
  decide

/-- StepRunsServedCommand with an empty agenda. -/
theorem test_witness_idle_agenda :
    ({ rig 1 Writer.reset Reader.reset (.reader 0) with inflight := [(.reader 0, ⟨0x90000000#32, []⟩)] } : State).agenda =
      [] ∧ decode ⟨0x90000000#32, []⟩ = .ok .rNext := ⟨rfl, by decide⟩

/-- DeliveryAndWaiting: a port with nothing waiting, among commands for another. -/
theorem test_witness_nothing_waiting :
    ∀ x ∈ [(Port.reader 0, (⟨0x90000000#32, []⟩ : Transaction))], x.1 ≠ .writer 0 := by decide

/-- MissingInstanceStops: the second writer of a machine with one. -/
theorem test_witness_missing_instance :
    (rig 1 Writer.reset Reader.reset (.writer 1)).hasPort (.writer 1) = false ∧
    (rig 1 Writer.reset Reader.reset (.reader 0)).hasPort (.reader 0) = true := by decide

/-- ResetEventDiscards and SoftResets: a reset of writer 0 next, with writer 0 being served. -/
theorem test_witness_reset_event :
    let s := { rig 1 ⟨.opened, [0x80#8], 1⟩ Reader.reset (.writer 0) with agenda := [.reset (.instanceAt (.writer 0))] }
    s.agenda = [.reset (.instanceAt (.writer 0))] ∧ s.ServesWriter 0 ⟨.opened, [0x80#8], 1⟩ := ⟨rfl, rfl, rfl⟩

/-- The hypotheses of the writer commands' completion: an open writer with one bit, in a machine of 10 bytes, where
W_INT of 64 bits, 9 bytes and a field of 9 bytes still fit; and at offset 0. -/
theorem test_witness_writer_room :
    (rig 10 ⟨.opened, pack [true], 1⟩ Reader.reset (.writer 0)).ServesWriter 0
      ⟨.opened, pack [true], [true].length⟩ ∧
    ceil8 ([true].length + 64) ≤ 10 ∧ ceil8 ([true].length + 8 * 9) ≤ 10 ∧ ceil8 ([true].length + 1) ≤ 10 ∧
    pack [true] = [] ++ [0x80#8] ∧ [true].length % 8 ≠ 0 ∧ ([] : List Bool).length % 8 = 0 :=
  ⟨⟨rfl, rfl⟩, by decide⟩

/-- The ends of W_INT's and R_INIT's legal widths, and the first illegal ones. -/
theorem test_witness_widths :
    (1 ≤ (1#7).toNat ∧ (64#7).toNat ≤ 64 ∧ (0#7).toNat = 0 ∧ 64 < (65#7).toNat ∧ 64 < (127#7).toNat) ∧
    (1 ≤ (1#6).toNat ∧ (32#6).toNat ≤ 32 ∧ (0#6).toNat < Config.fwMin ∧ Config.fwMax < (33#6).toNat) := by decide

/-- W_STR with `L = F`, and with `L = F + 1`. -/
theorem test_witness_text_lengths :
    [0x41#8, 0x42#8].length ≤ (2#12).toNat ∧ (1#12).toNat < [0x41#8, 0x42#8].length := by decide

/-- FinishedWriterRefuses. -/
theorem test_witness_finished :
    (rig 1 ⟨.finished, [], 0⟩ Reader.reset (.writer 0)).ServesWriter 0 ⟨.finished, [], 0⟩ ∧
    (Instr.wBytes []).engine = .writer ∧ Instr.wBytes [] ≠ .wNew := ⟨⟨rfl, rfl⟩, rfl, by decide⟩

/-- CapacityRefused: a full one-byte buffer has no room for a bit, a W_INT of width 1, a byte or a one-byte field;
and a source of two bytes is too long for one. -/
theorem test_witness_capacity :
    (rig 1 ⟨.opened, [0xFF#8], 8⟩ Reader.reset (.writer 0)).ServesWriter 0 ⟨.opened, [0xFF#8], 8⟩ ∧
    1 < ceil8 (8 + 1) ∧ 1 < ceil8 (8 + (1#7).toNat) ∧ 1 < ceil8 (8 + 8 * [0x00#8].length) ∧
    1 < ceil8 (8 + 8 * (1#12).toNat) ∧ ([] : List Byte).length ≤ (1#12).toNat ∧ 1 < [0x00#8, 0x00#8].length :=
  ⟨⟨rfl, rfl⟩, by decide, by decide, by decide, by decide, by decide, by decide⟩

/-- BufIsAppendOnly, WriterContentIsPackedStream and RegistersFitTheirWidths: a writer that meets the invariant, and
a command carried out at it. -/
theorem test_witness_writer_inv : Writer.Inv 2 ⟨.opened, pack [true, false, true], 3⟩ ∧
    writerAfter (exec (.wBit true) (rig 2 ⟨.opened, pack [true, false, true], 3⟩ Reader.reset (.writer 0))) =
      some (some ⟨.opened, [0xB0#8], 4⟩, [(.writer 0, ⟨.ok, .empty⟩)]) :=
  ⟨Writer.inv_of_pack (by decide), by decide⟩

/-- WriterPhaseTransitions and ReaderPhaseTransitions: commands that change the phase. -/
theorem test_witness_phase_changes :
    writerAfter (exec .wFinish (rig 1 Writer.reset Reader.reset (.writer 0))) =
      some (some ⟨.finished, [], 0⟩, [(.writer 0, ⟨.ok, .bytes []⟩)]) ∧
    readerAfter (exec (.rInit 32#6 []) (rig 0 Writer.reset Reader.reset (.reader 0))) =
      some (some ⟨.active, [], 32#6, 0, 0#40, 0#6⟩, [(.reader 0, ⟨.ok, .empty⟩)]) := by decide

/-- IntTruncationAndFastPath at the ends of its widths, WholeByteIntIsBytes at the ends of k. -/
theorem test_witness_int_widths : 1 ≤ 1 ∧ 1 ≤ 64 ∧ 64 ≤ 64 ∧ (BitVec.ofNat 7 (8 * 8)).toNat = 64 := by decide

/-- SplitSpansAgree: two spans that just fill the buffer. -/
theorem test_witness_split : ceil8 (0 + 8 * ([0x01#8] ++ [0x02#8]).length) ≤ 2 := by decide

/-- FinishReturnsPackedStream: two commands that both answer OK without data, from an empty open writer. -/
theorem test_witness_finish_stream :
    (rig 2 ⟨.opened, [], 0⟩ Reader.reset (.writer 0)).ServesWriter 0 ⟨.opened, [], 0⟩ ∧
    writerAfter (execAll [.wBit true, .wInt 9#7 0#64] (rig 2 ⟨.opened, [], 0⟩ Reader.reset (.writer 0))) =
      some (some ⟨.opened, [0x80#8, 0x00#8], 10⟩, List.replicate 2 (.writer 0, ⟨.ok, .empty⟩)) :=
  ⟨⟨rfl, rfl⟩, by decide⟩

/-- NoInterFieldPadding: a command that answers OK without data. -/
theorem test_witness_no_padding :
    writerAfter (exec (.wStr 1#12 []) (rig 2 ⟨.opened, [0x80#8], 1⟩ Reader.reset (.writer 0))) =
      some (some ⟨.opened, [0x90#8, 0x00#8], 9⟩, [(.writer 0, ⟨.ok, .empty⟩)]) := by decide

/-- ErrorChangesNothing, InvalidWidthsRefused and LongTextRefused: commands that answer with an error. -/
theorem test_witness_errors :
    writerAfter (exec (.wInt 0#7 5#64) (rig 2 Writer.reset Reader.reset (.writer 0))) =
      some (some Writer.reset, [(.writer 0, ⟨.invalidFieldWidth, .empty⟩)]) ∧
    writerAfter (exec (.wStr 0#12 [0x41#8]) (rig 2 Writer.reset Reader.reset (.writer 0))) =
      some (some Writer.reset, [(.writer 0, ⟨.fieldOverflow, .empty⟩)]) := by decide

/-- A pass over one byte at width 3. -/
def pass : Reader := Reader.start 3#6 [0xB9#8]

/-- RNextReturnsField: a pass with at least FW bits left, and StatusPriority's reader. -/
theorem test_witness_pass : (rig 1 Writer.reset pass (.reader 0)).ServesReader 0 pass ∧ pass.Inv 1 ∧
    pass.phase = .active ∧ pass.bitCursor + pass.fw.toNat ≤ 8 * pass.src.length :=
  ⟨⟨rfl, rfl⟩, Reader.start_inv (by decide) (by decide) (by decide), rfl, by decide⟩

/-- RNextDone and ReaderPhaseTransitions: an empty pass, which has fewer than FW bits left from the start. -/
theorem test_witness_short_pass : (Reader.start 32#6 []).Inv 0 ∧
    8 * (Reader.start 32#6 []).src.length < (Reader.start 32#6 []).bitCursor + (Reader.start 32#6 []).fw.toNat :=
  ⟨Reader.start_inv (by decide) (by decide) (by decide), by decide⟩

/-- RNextDone's second clause, and IdleReaderRefuses. -/
theorem test_witness_reader_phases :
    (rig 1 Writer.reset ⟨.exhausted, [], 10#6, 0, 0#40, 0#6⟩ (.reader 0)).ServesReader 0
      ⟨.exhausted, [], 10#6, 0, 0#40, 0#6⟩ ∧
    (rig 1 Writer.reset Reader.reset (.reader 0)).ServesReader 0 Reader.reset ∧ Reader.reset.phase = .idle :=
  ⟨⟨rfl, rfl⟩, ⟨rfl, rfl⟩, rfl⟩

/-- RNextShiftsBoundedBytes: an R_NEXT of the widest field shifts in four bytes. -/
theorem test_witness_shift_bound :
    readerAfter (exec .rNext (rig 5 Writer.reset (Reader.start 32#6 [0xDE#8, 0xAD#8, 0xBE#8, 0xEF#8, 0x01#8]) (.reader 0))) =
      some (some ⟨.active, [0xDE#8, 0xAD#8, 0xBE#8, 0xEF#8, 0x01#8], 32#6, 4, 0#40, 0#6⟩,
        [(.reader 0, ⟨.ok, .word 0xDEADBEEF#32⟩)]) := by decide

/-- PassYieldsDecodeAll, DecodeAllLoopReturnsAllFields and RInitCompletes at the widest width. -/
theorem test_witness_pass_start :
    (rig 4 Writer.reset Reader.reset (.reader 0)).ServesReader 0 Reader.reset ∧ 1 ≤ (32#6).toNat ∧ (32#6).toNat ≤ 32 ∧
    [0x01#8, 0x02#8, 0x03#8, 0x04#8].length ≤ 4 := ⟨⟨rfl, rfl⟩, by decide, by decide, by decide⟩

/-- RoundTripAtOneWidth: three fields of width 10 in four bytes (P2). -/
theorem test_witness_round_trip :
    (rig 4 ⟨.opened, [], 0⟩ Reader.reset (.writer 0)).ServesWriter 0 ⟨.opened, [], 0⟩ ∧
    (rig 4 ⟨.opened, [], 0⟩ Reader.reset (.writer 0)).readers[0]? = some Reader.reset ∧
    ceil8 ([466#64, 240#64, 0x3FF#64].length * 10) ≤ 4 := ⟨⟨rfl, rfl⟩, rfl, by decide⟩

/-- RoundTripAtMixedWidths: widths 1 and 64 in nine bytes. -/
theorem test_witness_mixed_widths :
    (∀ x ∈ [(1#64, 1#7), (5#64, 64#7)], 1 ≤ x.2.toNat ∧ x.2.toNat ≤ 64) ∧
    ceil8 (([(1#64, 1#7), (5#64, 64#7)].map (fun x => x.2.toNat)).sum) ≤ 9 := by simp [ceil8]

/-- WriterCommandFrame and ReaderCommandFrame: commands of both kinds answer a next state, at their own port and at
the other kind's. -/
theorem test_witness_frames :
    (Instr.wBit true).engine = .writer ∧ Instr.rNext.engine = .reader ∧
    (writerAfter (exec (.wBit true) (rig 1 Writer.reset Reader.reset (.reader 0)))).isSome = true ∧
    (readerAfter (exec .rNext (rig 1 Writer.reset Reader.reset (.reader 0)))).isSome = true := by decide

/-- ResultDependsOnInstanceOnly: two machines that differ in their readers and agree at writer 0. -/
theorem test_witness_same_instance :
    (rig 1 Writer.reset Reader.reset (.writer 0)).ServesWriter 0 Writer.reset ∧
    (rig 1 Writer.reset pass (.writer 0)).ServesWriter 0 Writer.reset ∧
    (rig 1 Writer.reset Reader.reset (.reader 0)).ServesReader 0 Reader.reset ∧
    (rig 1 ⟨.opened, [0x80#8], 1⟩ Reader.reset (.reader 0)).ServesReader 0 Reader.reset :=
  ⟨⟨rfl, rfl⟩, ⟨rfl, rfl⟩, ⟨rfl, rfl⟩, ⟨rfl, rfl⟩⟩

/-- InstancesAreIndependent: a writer's and a reader's command, in either order. -/
theorem test_witness_two_instances : ∃ t t' u u',
    exec (.wBit true) { rig 1 Writer.reset Reader.reset (.writer 0) with serving := .writer 0 } = .next t ∧
    exec .rNext { t with serving := .reader 0 } = .next t' ∧
    exec .rNext { rig 1 Writer.reset Reader.reset (.writer 0) with serving := .reader 0 } = .next u ∧
    exec (.wBit true) { u with serving := .writer 0 } = .next u' := ⟨_, _, _, _, rfl, rfl, rfl, rfl⟩

/-- RegistersFitTheirWidths, third clause: for one byte, 8 < 2^4. -/
theorem test_witness_bitlenBits : 8 * 1 < 2 ^ 4 ∧ Config.bitlenBits 1 = 4 := by decide

/-- StepKeepsInvariant and StepAlwaysAnswers: a machine that meets the invariant, with an event it can take. -/
theorem test_witness_state_inv :
    (rigServing 1 Writer.reset Reader.reset (.writer 0) ⟨0x20000001#32, []⟩).Inv ∧
    ∀ e, (rigServing 1 Writer.reset Reader.reset (.writer 0) ⟨0x20000001#32, []⟩).agenda.head? = some e →
      (rigServing 1 Writer.reset Reader.reset (.writer 0) ⟨0x20000001#32, []⟩).EventOk e := by
  refine ⟨⟨by decide, ?_, ?_, by decide, by decide⟩, ?_⟩
  · intro w hw
    obtain rfl : w = Writer.reset := by simpa [rigServing, rig] using hw
    exact Writer.reset_inv _
  · intro r hr
    obtain rfl : r = Reader.reset := by simpa [rigServing, rig] using hr
    exact Reader.reset_inv _
  · intro e he
    have : e = .serve (.writer 0) := by simpa [rigServing, rig] using he.symm
    subst this
    trivial

/-- ResponsesInCommandOrder: a step that adds a response. -/
theorem test_witness_response_added : writerStep Writer.reset ⟨0x20000000#32, []⟩ =
    some (some ⟨.opened, [0x00#8], 1⟩, [(.writer 0, ⟨.ok, .empty⟩)]) := by decide

/-- ResetEventDiscards and ReaderPhaseTransitions: a reset of reader 0 next. -/
theorem test_witness_reader_reset :
    let s := { rig 1 Writer.reset (Reader.start 3#6 [0xB9#8]) (.reader 0) with
      agenda := [.reset (.instanceAt (.reader 0))] }
    s.agenda = [.reset (.instanceAt (.reader 0))] ∧ s.readers[0]? = some (Reader.start 3#6 [0xB9#8]) ∧
    readerAfter (step s) = some (some Reader.reset, []) := by decide

/-- ErrorChangesNothing's third clause: a reserved opcode served at a port that exists. -/
theorem test_witness_undecodable :
    let s := rigServing 1 Writer.reset Reader.reset (.writer 0) ⟨0x70000000#32, []⟩
    s.WillServe (.writer 0) ⟨0x70000000#32, []⟩ [] [] ∧ s.hasPort (.writer 0) = true ∧
    decode ⟨0x70000000#32, []⟩ = .error .reservedOpcode := ⟨⟨rfl, rfl⟩, rfl, by decide⟩

/-- FramingRecoversTransaction: a reserved opcode, a command that is malformed for its width bits alone, and a full
payload. -/
theorem test_witness_framing :
    opNumber ⟨0x70000005#32, []⟩ = 7 ∧ requiredWords ⟨0x70000005#32, []⟩ = 0 ∧
    [1#32, 2#32].length = requiredWords ⟨0x30000080#32, [1#32, 2#32]⟩ ∧
    [0x01020304#32, 0x05000000#32].length = requiredWords ⟨0x50005005#32, [0x01020304#32, 0x05000000#32]⟩ := by decide

/-- DeliveryAndWaiting's first clause: a delivery to a port that exists. -/
theorem test_witness_delivery :
    let s := { rig 1 Writer.reset Reader.reset (.writer 0) with agenda := [.deliver (.reader 0) ⟨0x90000000#32, []⟩] }
    s.agenda = [.deliver (.reader 0) ⟨0x90000000#32, []⟩] ∧ s.hasPort (.reader 0) = true := ⟨rfl, rfl⟩

/-- DeliveryAndWaiting's second clause: nothing on the agenda and nothing in flight. -/
theorem test_witness_waiting :
    (rig 1 Writer.reset Reader.reset (.writer 0)).agenda = [] ∧
    (rig 1 Writer.reset Reader.reset (.writer 0)).inflight = [] := ⟨rfl, rfl⟩

/-- RNextReturnsField where `FW <= HELD`: the second field of the pass above, its byte being held already. -/
theorem test_witness_held_field : Reader.Inv 1 ⟨.active, [0xB9#8], 3#6, 1, 0x19#40, 5#6⟩ ∧
    (3#6).toNat ≤ (5#6).toNat ∧
    readerAfter (exec .rNext (rig 1 Writer.reset ⟨.active, [0xB9#8], 3#6, 1, 0x19#40, 5#6⟩ (.reader 0))) =
      some (some ⟨.active, [0xB9#8], 3#6, 1, 0x1#40, 2#6⟩, [(.reader 0, ⟨.ok, .word 6#32⟩)]) :=
  ⟨⟨by decide, by decide, by decide, by decide, by decide, by decide, by decide, by decide, by decide, by decide⟩,
    by decide, by decide⟩

/-- DecodeAllLoopReturnsAllFields' second clause: an R_INIT that fails at a pass under way, whose fields are drained. -/
theorem test_witness_failed_init : pass.Inv 1 ∧ (pass.decodeAllLoop 1 0#6 []).2 = [5#32, 6#32] ∧
    (pass.decodeAllLoop 1 0#6 []).1.phase = .exhausted :=
  ⟨Reader.start_inv (by decide) (by decide) (by decide), by decide, by decide⟩

/-- AssemblerRejectsWhatDoesNotFit: a line that assembles, and the first values that do not fit. -/
theorem test_witness_assembler : assemble (.wstr [0x41] 0) = some (.wStr 0#12 [0x41#8]) ∧ assemble (.wbit 2) = none ∧
    assemble (.wint (2 ^ 64) 1) = none ∧ assemble (.wint 0 128) = none ∧ assemble (.wint 0 127) ≠ none ∧
    assemble (.wstr [] 4096) = none ∧ assemble (.rinit 64 []) = none ∧ assemble (.rinit 63 []) ≠ none ∧
    assemble (.wbytes [255, 256]) = none ∧ assemble (.wbytes [0, 255]) ≠ none := by decide

end Sys2Proof.Tests
end

section
/-! PROOF. The registers fit their widths (00_scope R8, 10_state R25, R26). -/

namespace Sys2Proof.Config

/-- 00_scope R8: `2^BITLEN_BITS > 8 * WBUF_BYTES`. -/
theorem lt_two_pow_bitlenBits (cap : Nat) : 8 * cap < 2 ^ bitlenBits cap := Nat.lt_log2_self

/-- 00_scope R8: BITLEN_BITS is the least such width; for no bytes it is 1, where 0 would do. -/
theorem bitlenBits_le {cap j : Nat} (hcap : cap ≠ 0) (h : 8 * cap < 2 ^ j) : bitlenBits cap ≤ j :=
  (Nat.log2_lt (by omega)).2 h

end Sys2Proof.Config

namespace Sys2Proof.Machine

/-- R26 with FW at most 32; an Idle reader holds nothing (R182). -/
theorem Reader.Inv.held_le_39 {cap : Nat} {r : Reader} (h : r.Inv cap) : r.held.toNat ≤ 39 := by
  by_cases hp : r.phase = .idle
  · rw [h.idle_reset hp]
    decide
  · have hfw : r.fw.toNat ≤ 32 := (h.fw_range hp).2
    have hheld := h.held_range hp
    omega

theorem Reader.Inv.acc_lt_two_pow_39 {cap : Nat} {r : Reader} (h : r.Inv cap) : r.acc.toNat < 2 ^ 39 :=
  h.acc_lt.trans_le (Nat.pow_le_pow_right (by decide) h.held_le_39)

theorem Writer.Inv.bitlen_lt {cap : Nat} {w : Writer} (h : w.Inv cap) : w.bitlen < 2 ^ Config.bitlenBits cap :=
  h.bitlen_le.trans_lt (Config.lt_two_pow_bitlenBits cap)

/-- Settles O50: HELD is at most FW + 7 with FW at most 32, BITLEN at most 8 * WBUF_BYTES, and `Nat.log2` is exact. -/
theorem registersFitTheirWidths : Obligations.RegistersFitTheirWidths := by
  refine ⟨fun _ _ h => ⟨h.held_le_39, h.acc_lt_two_pow_39⟩, fun _ _ h => h.bitlen_lt, fun cap j h => ?_⟩
  by_cases hcap : cap = 0
  · exact .inr hcap
  · exact .inl (Config.bitlenBits_le hcap h)

end Sys2Proof.Machine
end

section
/-! SUPPORT. What one command, one served port and one reset do to the whole machine, each said once: the frame of a
command, the registers of an engine after it, and the cases of `serve` and `State.applyReset`. -/

namespace Sys2Proof.Machine

/-! ### The frame of a command (10_state R31, 20_memory R59) -/

/-- Whatever a command does, the model's own fields and the numbers of engines stay, and there is one response. -/
theorem exec_frame {i : Instr} {s t : State} (h : exec i s = .next t) :
    t.params = s.params ∧ t.agenda = s.agenda ∧ t.inflight = s.inflight ∧ t.serving = s.serving ∧
      t.writers.length = s.writers.length ∧ t.readers.length = s.readers.length ∧
      ∃ r, t.responses = s.responses ++ [(s.serving, r)] := by
  rcases exec_next h with ⟨k, w, hsv, rfl⟩ | ⟨k, r, hsv, rfl⟩
  · simp [hsv.1]
  · simp [hsv.1]

theorem exec_writers_unserved {i : Instr} {s t : State} {j : Nat} (h : exec i s = .next t)
    (hj : s.serving ≠ .writer j) : t.writers[j]? = s.writers[j]? := by
  rcases exec_next h with ⟨k, w, hsv, rfl⟩ | ⟨k, r, hsv, rfl⟩
  · exact List.getElem?_set_ne fun hk => hj (by rw [← hk, hsv.1])
  · rfl

theorem exec_readers_unserved {i : Instr} {s t : State} {j : Nat} (h : exec i s = .next t)
    (hj : s.serving ≠ .reader j) : t.readers[j]? = s.readers[j]? := by
  rcases exec_next h with ⟨k, w, hsv, rfl⟩ | ⟨k, r, hsv, rfl⟩
  · rfl
  · exact List.getElem?_set_ne fun hk => hj (by rw [← hk, hsv.1])

/-- A writer command changes no reader, at a reader's port either. -/
theorem exec_readers_of_writer_engine {i : Instr} {s t : State} (he : i.engine = .writer) (h : exec i s = .next t) :
    t.readers = s.readers := by
  rw [exec_of_writer s he] at h
  rcases State.onWriter_next h with ⟨k, w, _, rfl⟩ | ⟨k, _, _, rfl⟩
  · rfl
  · rfl

/-- A reader command changes no writer, at a writer's port either. -/
theorem exec_writers_of_reader_engine {i : Instr} {s t : State} (he : i.engine = .reader) (h : exec i s = .next t) :
    t.writers = s.writers := by
  rw [exec_of_reader s he] at h
  rcases State.onReader_next h with ⟨k, r, _, rfl⟩ | ⟨k, _, _, rfl⟩
  · rfl
  · rfl

/-! ### The registers of one engine after a command -/

theorem State.ServesWriter.writerResult_self {s : State} {k : Nat} {w : Writer} (h : s.ServesWriter k w) (w' : Writer)
    (r : Response) : (s.writerResult k w' r).writers[k]? = some w' :=
  List.getElem?_set_self (List.getElem?_eq_some_iff.mp h.2).1

theorem State.ServesReader.readerResult_self {s : State} {k : Nat} {r : Reader} (h : s.ServesReader k r) (r' : Reader)
    (x : Response) : (s.readerResult k r' x).readers[k]? = some r' :=
  List.getElem?_set_self (List.getElem?_eq_some_iff.mp h.2).1

/-- A writer after a command is as before, or it is the served one and has what the command does to it. -/
theorem exec_writer_cases {i : Instr} {s t : State} {k : Nat} {w w' : Writer} (h : exec i s = .next t)
    (hw : s.writers[k]? = some w) (hw' : t.writers[k]? = some w') :
    w' = w ∨ (s.serving = .writer k ∧ w' = (writerEffect s.params.wbufBytes i w).1) := by
  by_cases hs : s.serving = .writer k
  · have hsv : s.ServesWriter k w := ⟨hs, hw⟩
    rw [exec_at_writer i hsv] at h
    cases h
    rw [hsv.writerResult_self] at hw'
    exact .inr ⟨hs, (Option.some.inj hw').symm⟩
  · rw [exec_writers_unserved h hs, hw] at hw'
    exact .inl (Option.some.inj hw').symm

/-- A reader after a command is as before, or it is the served one and has what the command does to it. -/
theorem exec_reader_cases {i : Instr} {s t : State} {k : Nat} {r r' : Reader} (h : exec i s = .next t)
    (hr : s.readers[k]? = some r) (hr' : t.readers[k]? = some r') :
    r' = r ∨ (s.serving = .reader k ∧ r' = (readerEffect s.params.rbufBytes i r).1) := by
  by_cases hs : s.serving = .reader k
  · have hsv : s.ServesReader k r := ⟨hs, hr⟩
    rw [exec_at_reader i hsv] at h
    cases h
    rw [hsv.readerResult_self] at hr'
    exact .inr ⟨hs, (Option.some.inj hr').symm⟩
  · rw [exec_readers_unserved h hs, hr] at hr'
    exact .inl (Option.some.inj hr').symm

/-! ### Serving a port, and a reset -/

/-- Everything serving a port can do: nothing where no command waits there; else the oldest command is taken and
carried out, or answered ILLEGAL_COMMAND where it is malformed. -/
theorem serve_next {p : Port} {s t : State} (h : serve p s = .next t) :
    t = s ∨ ∃ tr left, takeFirst p s.inflight = some (tr, left) ∧
      ((∃ i, decode tr = .ok i ∧ exec i { s with inflight := left, serving := p } = .next t) ∨
        (∃ e, decode tr = .error e ∧ State.illegal { s with inflight := left, serving := p } = .next t)) := by
  cases hf : takeFirst p s.inflight with
  | none =>
    simp only [serve, State.takeCommand, hf, Host.Outcome.next.injEq] at h
    exact .inl h.symm
  | some x =>
    obtain ⟨tr, left⟩ := x
    refine .inr ⟨tr, left, rfl, ?_⟩
    cases hd : decode tr with
    | ok i => exact .inl ⟨i, rfl, by simpa only [serve, State.takeCommand, hf, hd] using h⟩
    | error e => exact .inr ⟨e, rfl, by simpa only [serve, State.takeCommand, hf, hd] using h⟩

theorem deliver_next {p : Port} {tr : Transaction} {s t : State} (h : s.deliver p tr = .next t) :
    s.hasPort p = true ∧ t = { s with inflight := s.inflight ++ [(p, tr)] } := by
  unfold State.deliver at h
  split at h
  · exact ⟨by assumption, by simpa using h.symm⟩
  · cases h

/-- Everything a reset can do (70_reset R180). -/
theorem applyReset_next {target : ResetTarget} {s t : State} (h : s.applyReset target = .next t) :
    (target = .all ∧ t = { s with
        writers := s.writers.map (fun _ => Writer.reset), readers := s.readers.map (fun _ => Reader.reset),
        inflight := [] }) ∨
      (∃ k, target = .instanceAt (.writer k) ∧
        t = { s.setWriter k Writer.reset with inflight := otherPorts (.writer k) s.inflight }) ∨
      (∃ k, target = .instanceAt (.reader k) ∧
        t = { s.setReader k Reader.reset with inflight := otherPorts (.reader k) s.inflight }) := by
  unfold State.applyReset at h
  split at h
  · exact .inl ⟨rfl, by simpa using h.symm⟩
  · split at h
    · split at h
      · exact .inr (.inl ⟨_, rfl, by simpa using h.symm⟩)
      · exact .inr (.inr ⟨_, rfl, by simpa using h.symm⟩)
    · cases h

theorem step_of_reset {s : State} {target : ResetTarget} {rest : List Event} (h : s.agenda = .reset target :: rest) :
    step s = State.applyReset target { s with agenda := rest } := by
  simp [step, h]

theorem eq_of_getElem?_set_self {α : Type} {l : List α} {k : Nat} {a b : α} (h : (l.set k a)[k]? = some b) :
    b = a := by
  obtain ⟨hk, hb⟩ := List.getElem?_eq_some_iff.mp h
  rw [← hb, List.getElem_set_self]

/-- After the reset of writer k, that writer has its reset registers. -/
theorem step_reset_writer {s t : State} {k : Nat} {w' : Writer} {rest : List Event}
    (ha : s.agenda = .reset (.instanceAt (.writer k)) :: rest) (h : step s = .next t)
    (hw' : t.writers[k]? = some w') : w' = Writer.reset := by
  rw [step_of_reset ha] at h
  rcases applyReset_next h with ⟨htgt, _⟩ | ⟨j, htgt, rfl⟩ | ⟨j, htgt, _⟩ <;> cases htgt
  exact eq_of_getElem?_set_self hw'

/-- After the reset of reader k, that reader has its reset registers. -/
theorem step_reset_reader {s t : State} {k : Nat} {r' : Reader} {rest : List Event}
    (ha : s.agenda = .reset (.instanceAt (.reader k)) :: rest) (h : step s = .next t)
    (hr' : t.readers[k]? = some r') : r' = Reader.reset := by
  rw [step_of_reset ha] at h
  rcases applyReset_next h with ⟨htgt, _⟩ | ⟨j, htgt, _⟩ | ⟨j, htgt, rfl⟩ <;> cases htgt
  exact eq_of_getElem?_set_self hr'

end Sys2Proof.Machine
end

section
/-! PROOF. The invariant of the whole machine: the state after reset meets it and every step keeps it (10_state R22,
R23, R25 to R28), and what it says of an open writer. -/

namespace Sys2Proof.Machine

/-! ### Reset -/

/-- Settles O11: every engine of `State.reset` is a copy of `Writer.reset` or `Reader.reset`. -/
theorem resetRegisterValues : Obligations.ResetRegisterValues := by
  refine ⟨fun w hw => ?_, fun r hr => ?_⟩
  · obtain rfl := List.eq_of_mem_replicate hw
    simp [Writer.reset]
  · obtain rfl := List.eq_of_mem_replicate hr
    simp [Reader.reset]

/-- Settles O51: every engine is at its reset registers, nothing is in flight, and writer 0 exists. -/
theorem resetMeetsInvariant : Obligations.ResetMeetsInvariant where
  wbuf_pos := Nat.succ_pos _
  writers_inv := fun _ hw => List.eq_of_mem_replicate hw ▸ Writer.reset_inv _
  readers_inv := fun _ hr => List.eq_of_mem_replicate hr ▸ Reader.reset_inv _
  inflight_ports := by simp [State.reset]
  serving_port := by simp [State.reset, Config.nWriters]

/-! ### The steps -/

/-- Which ports exist depends only on the numbers of engines. -/
theorem State.hasPort_congr {s t : State} (hw : t.writers.length = s.writers.length)
    (hr : t.readers.length = s.readers.length) (p : Port) : t.hasPort p = s.hasPort p := by
  cases p with
  | writer k => simp [hw]
  | reader k => simp [hr]

/-- A state with the same capacities, served port and numbers of engines, nothing new in flight and every engine's
invariant met, meets the invariant where the first one does. -/
theorem State.Inv.of_frame {s t : State} (hi : s.Inv) (hpar : t.params = s.params)
    (hfl : ∀ x ∈ t.inflight, x ∈ s.inflight) (hsv : t.serving = s.serving)
    (hwl : t.writers.length = s.writers.length) (hrl : t.readers.length = s.readers.length)
    (hw : ∀ w ∈ t.writers, w.Inv s.params.wbufBytes) (hr : ∀ r ∈ t.readers, r.Inv s.params.rbufBytes) : t.Inv where
  wbuf_pos := hpar ▸ hi.wbuf_pos
  writers_inv := hpar ▸ hw
  readers_inv := hpar ▸ hr
  inflight_ports := fun x hx => by rw [hasPort_congr hwl hrl, hi.inflight_ports x (hfl x hx)]
  serving_port := by rw [hasPort_congr hwl hrl, hsv, hi.serving_port]

theorem State.Inv.forall_writers_set {s : State} (hi : s.Inv) {k : Nat} {w : Writer}
    (hw : w.Inv s.params.wbufBytes) : ∀ v ∈ s.writers.set k w, v.Inv s.params.wbufBytes := fun v hv =>
  (List.mem_or_eq_of_mem_set hv).elim (hi.writers_inv v) fun h => h ▸ hw

theorem State.Inv.forall_readers_set {s : State} (hi : s.Inv) {k : Nat} {r : Reader}
    (hr : r.Inv s.params.rbufBytes) : ∀ v ∈ s.readers.set k r, v.Inv s.params.rbufBytes := fun v hv =>
  (List.mem_or_eq_of_mem_set hv).elim (hi.readers_inv v) fun h => h ▸ hr

/-- A command keeps the invariant: it changes only the served engine, whose own invariant it keeps. -/
theorem exec_keeps_inv {i : Instr} {s t : State} (hi : s.Inv) (h : exec i s = .next t) : t.Inv := by
  obtain ⟨hpar, -, hfl, hsv, hwl, hrl, -⟩ := exec_frame h
  refine hi.of_frame hpar (fun x hx => hfl ▸ hx) hsv hwl hrl ?_ ?_
  · rcases exec_next h with ⟨k, w, hserves, rfl⟩ | ⟨k, r, _, rfl⟩
    · exact hi.forall_writers_set (writerEffect_inv (hi.writers_inv w (List.mem_of_getElem? hserves.2)))
    · exact hi.writers_inv
  · rcases exec_next h with ⟨k, w, _, rfl⟩ | ⟨k, r, hserves, rfl⟩
    · exact hi.readers_inv
    · exact hi.forall_readers_set (readerEffect_inv (hi.readers_inv r (List.mem_of_getElem? hserves.2)))

theorem illegal_keeps_inv {s t : State} (hi : s.Inv) (h : s.illegal = .next t) : t.Inv := by
  obtain ⟨-, rfl⟩ := State.illegal_next h
  exact hi.of_frame rfl (fun _ => id) rfl rfl rfl hi.writers_inv hi.readers_inv

/-- Taking a command keeps the invariant: a port with a command in flight exists. -/
theorem State.Inv.take {s : State} (hi : s.Inv) {p : Port} {tr : Transaction} {left : List (Port × Transaction)}
    (h : takeFirst p s.inflight = some (tr, left)) : State.Inv { s with inflight := left, serving := p } := by
  obtain ⟨before, after, hl, rfl, -⟩ := takeFirst_some h
  exact {
    wbuf_pos := hi.wbuf_pos
    writers_inv := hi.writers_inv
    readers_inv := hi.readers_inv
    inflight_ports := fun x hx => hi.inflight_ports x (by rw [hl]; simp at hx ⊢; tauto)
    serving_port := hi.inflight_ports (p, tr) (by simp [hl]) }

theorem serve_keeps_inv {p : Port} {s t : State} (hi : s.Inv) (h : serve p s = .next t) : t.Inv := by
  rcases serve_next h with rfl | ⟨tr, left, htake, ⟨i, -, hx⟩ | ⟨e, -, hx⟩⟩
  · exact hi
  · exact exec_keeps_inv (hi.take htake) hx
  · exact illegal_keeps_inv (hi.take htake) hx

theorem deliver_keeps_inv {p : Port} {tr : Transaction} {s t : State} (hi : s.Inv) (h : s.deliver p tr = .next t) :
    t.Inv := by
  obtain ⟨hp, rfl⟩ := deliver_next h
  refine ⟨hi.wbuf_pos, hi.writers_inv, hi.readers_inv, fun x hx => ?_, hi.serving_port⟩
  rcases List.mem_append.mp hx with hx | hx
  · exact hi.inflight_ports x hx
  · rw [List.mem_singleton.mp hx]
    exact hp

/-- A reset keeps the invariant: it only writes reset registers and only removes commands in flight. -/
theorem applyReset_keeps_inv {target : ResetTarget} {s t : State} (hi : s.Inv) (h : s.applyReset target = .next t) :
    t.Inv := by
  rcases applyReset_next h with ⟨-, rfl⟩ | ⟨k, -, rfl⟩ | ⟨k, -, rfl⟩
  · refine hi.of_frame rfl (by simp) rfl (by simp) (by simp) ?_ ?_
    · intro w hw
      obtain ⟨_, -, rfl⟩ := List.mem_map.mp hw
      exact Writer.reset_inv _
    · intro r hr
      obtain ⟨_, -, rfl⟩ := List.mem_map.mp hr
      exact Reader.reset_inv _
  · exact hi.of_frame rfl (fun _ => List.mem_of_mem_filter) rfl (by simp) rfl
      (hi.forall_writers_set (Writer.reset_inv _)) hi.readers_inv
  · exact hi.of_frame rfl (fun _ => List.mem_of_mem_filter) rfl rfl (by simp) hi.writers_inv
      (hi.forall_readers_set (Reader.reset_inv _))

theorem State.Inv.with_agenda {s : State} (hi : s.Inv) (rest : List Event) : State.Inv { s with agenda := rest } :=
  hi.of_frame rfl (fun _ => id) rfl rfl rfl hi.writers_inv hi.readers_inv

/-- Settles O52, by the next event: a served port, a delivery and a reset each keep the invariant. -/
theorem stepKeepsInvariant : Obligations.StepKeepsInvariant := by
  intro s t hi h
  unfold step at h
  split at h
  · split at h
    · cases h
      exact hi
    · exact serve_keeps_inv hi h
  · exact deliver_keeps_inv (hi.with_agenda _) h
  · exact serve_keeps_inv (hi.with_agenda _) h
  · exact applyReset_keeps_inv (hi.with_agenda _) h

/-! ### The content of an open writer -/

/-- Settles O49: the stream is the first BITLEN bits of BUF. -/
theorem writerContentIsPackedStream : Obligations.WriterContentIsPackedStream := by
  rintro cap ⟨ph, buf, bitlen⟩ rfl
  constructor
  · intro h
    obtain ⟨bits, hb⟩ := h.exists_pack
    cases hb
    exact ⟨bits, rfl, rfl, h.bitlen_le⟩
  · rintro ⟨bits, rfl, rfl, hle⟩
    exact Writer.inv_of_pack hle

end Sys2Proof.Machine
end

section
/-! PROOF. What a writer command changes and what it leaves: BUF is append-only (10_state R24), the transitions of
WPHASE (R29), and the frame (R31). -/

namespace Sys2Proof.Machine

/-! ### BUF -/

/-- `as` grows to `bs` past its first n bits: it does not get shorter, no byte before its last changes, and its first n
bits stay (10_state R24). -/
def Extends (n : Nat) (as bs : List Byte) : Prop :=
  as.length ≤ bs.length ∧ (∀ a, a + 1 < as.length → bs[a]? = as[a]?) ∧ ∀ p, p < n → bitAt bs p = bitAt as p

theorem Extends.refl (n : Nat) (bs : List Byte) : Extends n bs bs := ⟨le_rfl, fun _ _ => rfl, fun _ _ => rfl⟩

/-- A byte is determined by its eight bits. -/
theorem getElem?_eq_of_bitAt_eq {as bs : List Byte} {k : Nat} (ha : k < as.length) (hb : k < bs.length)
    (h : ∀ p, p / 8 = k → bitAt bs p = bitAt as p) : bs[k]? = as[k]? := by
  rw [List.getElem?_eq_getElem ha, List.getElem?_eq_getElem hb, Option.some.injEq]
  apply BitVec.eq_of_getLsbD_eq
  intro i hi
  have hdiv : (8 * k + (7 - i)) / 8 = k := by omega
  have hmod : 7 - (8 * k + (7 - i)) % 8 = i := by omega
  have hbit := h _ hdiv
  simp only [bitAt, hdiv, hmod, List.getD_eq_getElem?_getD, List.getElem?_eq_getElem ha,
    List.getElem?_eq_getElem hb] at hbit
  exact hbit

/-- Appending to a stream extends its packing: every byte before the last is full. -/
theorem pack_append_extends (bits more : List Bool) : Extends bits.length (pack bits) (pack (bits ++ more)) := by
  have hbit : ∀ p, p < bits.length → bitAt (pack (bits ++ more)) p = bitAt (pack bits) p := fun p hp => by
    rw [bitAt_pack, bitAt_pack, List.getD_append _ _ _ _ hp]
  have hlen : (pack bits).length ≤ (pack (bits ++ more)).length := by
    simpa using ceil8_mono (Nat.le_add_right bits.length more.length)
  refine ⟨hlen, fun a ha => ?_, hbit⟩
  have hfull : ceil8 bits.length = (bits.length + 7) / 8 := rfl
  exact getElem?_eq_of_bitAt_eq (by omega) (by omega) fun p hp => hbit p (by rw [pack_length] at ha; omega)

/-- A command keeps BUF, extends it, or is W_NEW or W_FINISH and empties it. -/
theorem writerEffect_buf {cap : Nat} {i : Instr} {w : Writer} (hi : w.Inv cap) :
    Extends w.bitlen w.buf (writerEffect cap i w).1.buf ∨
      ((i = .wNew ∨ i = .wFinish) ∧ (writerEffect cap i w).1.buf = []) := by
  rcases writerEffect_cases cap i w with ⟨hkept, _, _⟩ | ⟨rfl, h⟩ | ⟨rfl, _, h⟩ | ⟨_, _, hp, _, _, _, _, happ⟩
  · rw [hkept]
    exact .inl (Extends.refl _ _)
  · exact .inr ⟨.inl rfl, by rw [h]⟩
  · exact .inr ⟨.inr rfl, by rw [h]⟩
  · obtain ⟨bits, hb⟩ := hi.exists_pack
    rw [hp] at hb
    rw [happ bits hb, hb]
    exact .inl (pack_append_extends bits i.appends)

/-- Settles O21: BUF is kept or extended, and emptied only by W_NEW and W_FINISH. -/
theorem bufIsAppendOnly : Obligations.BufIsAppendOnly := by
  intro s t i k w w' h hw hw' hi
  have hbuf : Extends w.bitlen w.buf w'.buf ∨ ((i = .wNew ∨ i = .wFinish) ∧ w'.buf = []) := by
    rcases exec_writer_cases h hw hw' with rfl | ⟨_, rfl⟩
    · exact .inl (Extends.refl _ _)
    · exact writerEffect_buf hi
  rcases hbuf with hext | ⟨hcmd, hnil⟩
  · exact ⟨fun _ _ => hext, fun hlt => absurd hext.1 (by omega)⟩
  · exact ⟨fun hnew hfin => (hcmd.elim hnew hfin).elim, fun _ => hnil⟩

/-! ### WPHASE -/

theorem Writer.append_of_finished {w : Writer} (h : w.phase = .finished) (cap : Nat) (bad : Option Status) (k : Nat)
    (effect : Writer → Writer) : w.append cap bad k effect = (w, Response.only .writerFinished) := by
  simp [Writer.append, h]

/-- A finished writer refuses every writer command but W_NEW (60_exceptions R155). -/
theorem writerEffect_of_finished {cap : Nat} {i : Instr} {w : Writer} (hw : w.phase = .finished)
    (he : i.engine = .writer) (hn : i ≠ .wNew) :
    writerEffect cap i w = (w, Response.only .writerFinished) := by
  cases i with
  | wNew => exact absurd rfl hn
  | wBit _ => rw [writerEffect, Writer.cmdBit, Writer.append_of_finished hw]
  | wInt _ _ => rw [writerEffect, Writer.cmdInt, Writer.append_of_finished hw]
  | wBytes _ => rw [writerEffect, Writer.cmdBytes, Writer.append_of_finished hw]
  | wStr _ _ => rw [writerEffect, Writer.cmdStr, Writer.append_of_finished hw]
  | wFinish => simp [writerEffect, Writer.cmdFinish, hw]
  | rInit _ _ => cases he
  | rNext => cases he

/-- A command that changes WPHASE is W_NEW and opens, or W_FINISH and finishes (10_state R29). -/
theorem writerEffect_phase {cap : Nat} {i : Instr} {w : Writer} (h : (writerEffect cap i w).1.phase ≠ w.phase) :
    (i = .wNew ∧ (writerEffect cap i w).1.phase = .opened) ∨
      (i = .wFinish ∧ (writerEffect cap i w).1.phase = .finished) := by
  rcases writerEffect_cases cap i w with ⟨hkept, _, _⟩ | ⟨rfl, hx⟩ | ⟨rfl, _, hx⟩ | ⟨_, _, hp, _, _, hp', _, _⟩
  · exact absurd (by rw [hkept]) h
  · exact .inl ⟨rfl, by rw [hx]⟩
  · exact .inr ⟨rfl, by rw [hx]⟩
  · exact absurd (hp'.trans hp.symm) h

/-- Settles O22, by the registers of the one writer that a reset or a command reaches. -/
theorem writerPhaseTransitions : Obligations.WriterPhaseTransitions := by
  refine ⟨fun s t k w' rest ha h hw' => ?_, fun s k w hsv => ?_, fun s k w hsv hp => ?_,
    fun s t i k w w' h hw hw' hne => ?_, fun s k w i hsv hp he hn => ?_⟩
  · rw [step_reset_writer ha h hw']
    rfl
  · exact ⟨_, _, exec_at_writer .wNew hsv, hsv.writerResult_self _ _, rfl⟩
  · refine ⟨_, _, exec_at_writer .wFinish hsv, hsv.writerResult_self _ _, ?_⟩
    simp [writerEffect, Writer.cmdFinish, hp]
  · rcases exec_writer_cases h hw hw' with rfl | ⟨hs, rfl⟩
    · exact absurd rfl hne
    · exact ⟨hs, writerEffect_phase hne⟩
  · refine ⟨_, exec_at_writer i hsv, ?_⟩
    rw [writerEffect_of_finished hp he hn]
    rfl

/-! ### The frame -/

/-- Settles O45: the frame of any command, and a writer command reaches no reader. -/
theorem writerCommandFrame : Obligations.WriterCommandFrame := by
  intro s t i he h
  obtain ⟨hpar, hag, hfl, hsv, hwl, -, hresp⟩ := exec_frame h
  exact ⟨fun j => exec_writers_unserved h, hwl, exec_readers_of_writer_engine he h, hpar, hag, hfl, hsv, hresp⟩

end Sys2Proof.Machine
end

section
/-! PROOF. What a reader command changes and what it leaves: the transitions of RPHASE (10_state R30), and the frame
with SRC and FW (R31, 20_memory R62). -/

namespace Sys2Proof.Machine

/-! ### R_INIT and R_NEXT on one reader -/

/-- R_INIT is refused with the registers kept, or starts a pass (41_bitfieldreader R131). -/
theorem Reader.cmdInit_cases (cap : Nat) (w : BitVec 6) (bytes : List Byte) (r : Reader) :
    (r.cmdInit cap w bytes).1 = r ∨ r.cmdInit cap w bytes = (Reader.start w bytes, Response.only .ok) := by
  unfold Reader.cmdInit
  split
  · exact .inl rfl
  · split
    · exact .inl rfl
    · exact .inr rfl

theorem Reader.cmdInit_of_legal {cap : Nat} {w : BitVec 6} {bytes : List Byte} (r : Reader) (h1 : 1 ≤ w.toNat)
    (h2 : w.toNat ≤ 32) (h3 : bytes.length ≤ cap) :
    r.cmdInit cap w bytes = (Reader.start w bytes, Response.only .ok) := by
  have hwidth : readerWidthCheck w = none := if_neg (by simp only [Config.fwMin, Config.fwMax]; omega)
  have hlen : sourceLengthCheck cap bytes = none := if_neg (by omega)
  simp only [Reader.cmdInit, hwidth, hlen]

theorem Reader.cmdNext_of_active {r : Reader} (h : r.phase = .active) : r.cmdNext = r.pull (r.src.drop r.ridx) := by
  simp [Reader.cmdNext, h]

theorem Reader.cmdNext_of_not_active {r : Reader} (h : r.phase ≠ .active) : r.cmdNext.1 = r := by
  cases hp : r.phase with
  | idle => simp [Reader.cmdNext, hp]
  | active => exact absurd hp h
  | exhausted => simp [Reader.cmdNext, hp]

/-- The phase that R_NEXT leaves in a pass (41_bitfieldreader R132). -/
theorem Reader.cmdNext_phase_of_active {cap : Nat} {r : Reader} (hi : r.Inv cap) (ha : r.phase = .active) :
    r.cmdNext.1.phase = if r.bitCursor + r.fw.toNat ≤ 8 * r.src.length then .active else .exhausted := by
  obtain ⟨-, -, -, hend⟩ := Reader.pull_spec _ r hi ha rfl
  rw [Reader.cmdNext_of_active ha]
  split at hend
  · rw [if_pos (by assumption), hend.2.1]
  · rw [if_neg (by assumption), hend.2.1]

/-- R_NEXT's loop reads SRC and FW only; this holds outside the invariant too. -/
theorem Reader.pull_src_fw (rest : List Byte) (r : Reader) :
    (r.pull rest).1.src = r.src ∧ (r.pull rest).1.fw = r.fw := by
  induction rest generalizing r with
  | nil => unfold Reader.pull; split <;> exact ⟨rfl, rfl⟩
  | cons b rest ih =>
    unfold Reader.pull
    split
    · exact ⟨rfl, rfl⟩
    · exact ih (r.shiftIn b)

theorem Reader.cmdNext_src_fw (r : Reader) : r.cmdNext.1.src = r.src ∧ r.cmdNext.1.fw = r.fw := by
  by_cases ha : r.phase = .active
  · rw [Reader.cmdNext_of_active ha]
    exact Reader.pull_src_fw _ r
  · rw [Reader.cmdNext_of_not_active ha]
    exact ⟨rfl, rfl⟩

/-! ### RPHASE -/

/-- A command that changes RPHASE is an R_INIT that starts a pass, or an R_NEXT that finds fewer than FW bits left
(10_state R30). -/
theorem readerEffect_phase {cap : Nat} {i : Instr} {r : Reader} (hi : r.Inv cap)
    (h : (readerEffect cap i r).1.phase ≠ r.phase) :
    (∃ w bytes, i = .rInit w bytes ∧ (readerEffect cap i r).1.phase = .active) ∨
      (i = .rNext ∧ (readerEffect cap i r).1.phase = .exhausted ∧ 8 * r.src.length < r.bitCursor + r.fw.toNat) := by
  cases i with
  | rInit w bytes =>
    rcases Reader.cmdInit_cases cap w bytes r with hkept | hstart
    · exact absurd (congrArg Reader.phase hkept) h
    · exact .inl ⟨w, bytes, rfl, by rw [readerEffect, hstart]; rfl⟩
  | rNext =>
    by_cases ha : r.phase = .active
    · have hp := Reader.cmdNext_phase_of_active hi ha
      split at hp
      · exact absurd (hp.trans ha.symm) h
      · exact .inr ⟨rfl, hp, by omega⟩
    · exact absurd (congrArg Reader.phase (Reader.cmdNext_of_not_active ha)) h
  | wNew => exact absurd rfl h
  | wBit _ => exact absurd rfl h
  | wInt _ _ => exact absurd rfl h
  | wBytes _ => exact absurd rfl h
  | wStr _ _ => exact absurd rfl h
  | wFinish => exact absurd rfl h

/-- Settles O40, by the registers of the one reader that a reset or a command reaches. -/
theorem readerPhaseTransitions : Obligations.ReaderPhaseTransitions := by
  refine ⟨fun s t k r' rest ha h hr' => ?_, fun s k r w bytes hsv h1 h2 h3 => ?_, fun s k r hsv hi hp hshort => ?_,
    fun s t i k r r' h hr hr' hi hne => ?_⟩
  · rw [step_reset_reader ha h hr']
    rfl
  · refine ⟨_, _, exec_at_reader (.rInit w bytes) hsv, hsv.readerResult_self _ _, ?_⟩
    rw [readerEffect, Reader.cmdInit_of_legal r h1 h2 h3]
    rfl
  · refine ⟨_, _, exec_at_reader .rNext hsv, hsv.readerResult_self _ _, ?_⟩
    rw [readerEffect]
    cases hph : r.phase with
    | idle => exact absurd hph hp
    | active => rw [Reader.cmdNext_phase_of_active hi hph, if_neg (by omega)]
    | exhausted => rw [Reader.cmdNext_of_not_active (by simp [hph]), hph]
  · rcases exec_reader_cases h hr hr' with rfl | ⟨hs, rfl⟩
    · exact absurd rfl hne
    · exact ⟨hs, readerEffect_phase hi hne⟩

/-! ### The frame -/

/-- Settles O46: the frame of any command, a reader command reaches no writer, and R_NEXT keeps SRC and FW. -/
theorem readerCommandFrame : Obligations.ReaderCommandFrame := by
  intro s t i he h
  obtain ⟨hpar, hag, hfl, hsv, -, hrl, hresp⟩ := exec_frame h
  refine ⟨fun j => exec_readers_unserved h, hrl, exec_writers_of_reader_engine he h, hpar, hag, hfl, hsv, hresp, ?_⟩
  rintro rfl k r r' hr hr'
  rcases exec_reader_cases h hr hr' with rfl | ⟨_, rfl⟩
  · exact ⟨rfl, rfl⟩
  · exact Reader.cmdNext_src_fw r

end Sys2Proof.Machine
end

section
/-! PROOF. What an R_NEXT with a field left returns and leaves in the registers (20_memory R46, 41_bitfieldreader
R132). -/

namespace Sys2Proof.Machine

/-- ACC is the HELD source bits that end at BIT_CURSOR + HELD (10_state R27, R28). -/
theorem Reader.Inv.acc_eq_fieldAt_bitCursor {cap : Nat} {r : Reader} (h : r.Inv cap) :
    r.acc.toNat = fieldAt r.src r.bitCursor r.held.toNat := h.acc_eq

theorem Reader.Inv.field_lt {cap : Nat} {r : Reader} (h : r.Inv cap) (hp : r.phase ≠ .idle) (p : Nat) :
    fieldAt r.src p r.fw.toNat < 2 ^ 32 :=
  (fieldAt_lt _ _ _).trans_le (Nat.pow_le_pow_right (by decide) (h.fw_range hp).2)

/-- Settles O37: the loop's outcome and the bytes it counts, and ACC by the invariant of the registers it leaves. -/
theorem rNextReturnsField : Obligations.RNextReturnsField := by
  intro s k r hsv hi ha hroom
  obtain ⟨hinv, hsrc, hfw, hend⟩ := Reader.pull_spec _ r hi ha rfl
  obtain ⟨hridx, hheld⟩ := Reader.pull_counts _ r hi ha rfl hroom
  rw [if_pos hroom] at hend
  obtain ⟨hresp, hphase, hcur⟩ := hend
  have hexec := exec_at_reader .rNext hsv
  rw [readerEffect, Reader.cmdNext_of_active ha, hresp] at hexec
  refine ⟨_, hexec, hi.field_lt (by simp [ha]) _, hphase, hsrc, hfw, hcur, fun hle => ?_,
    fun _ => ⟨hridx, by omega⟩, ?_⟩
  · have hnone : ceil8 (r.fw.toNat - r.held.toNat) = 0 := by rw [Nat.sub_eq_zero_of_le hle]; rfl
    rw [hnone] at hridx hheld
    exact ⟨hridx, by omega⟩
  · rw [hinv.acc_eq_fieldAt_bitCursor, hsrc, hcur]

end Sys2Proof.Machine
end

section
/-! PROOF. Engines share nothing: what a command answers and leaves depends on no other engine than the one it is served
at (20_memory R55), and commands to different engines commute (R59, 10_state R31). -/

namespace Sys2Proof.Machine

/-! ### One engine -/

/-- Settles O47, by what a command does to the one engine it is served at. -/
theorem resultDependsOnInstanceOnly : Obligations.ResultDependsOnInstanceOnly := by
  refine ⟨fun s s' t k k' w i hsv hsv' hpar h => ?_, fun s s' t k k' r i hsv hsv' hpar h => ?_⟩
  · rw [exec_at_writer i hsv, hpar] at h
    cases h
    exact ⟨_, _, exec_at_writer i hsv', rfl, rfl, by rw [hsv.writerResult_self, hsv'.writerResult_self]⟩
  · rw [exec_at_reader i hsv, hpar] at h
    cases h
    exact ⟨_, _, exec_at_reader i hsv', rfl, rfl, by rw [hsv.readerResult_self, hsv'.readerResult_self]⟩

/-! ### Engines of either kind, by their ports -/

/-- The registers of the engine behind a port. -/
def State.engineAt (s : State) : Port → Option (Writer ⊕ Reader)
  | .writer k => s.writers[k]?.map .inl
  | .reader k => s.readers[k]?.map .inr

/-- What a command does to the engine it is served at. -/
def engineEffect (c : Params) (i : Instr) : Writer ⊕ Reader → (Writer ⊕ Reader) × Response
  | .inl w => (.inl (writerEffect c.wbufBytes i w).1, (writerEffect c.wbufBytes i w).2)
  | .inr r => (.inr (readerEffect c.rbufBytes i r).1, (readerEffect c.rbufBytes i r).2)

/-- States with the same registers behind every port have the same engines. -/
theorem engines_eq_of_engineAt_eq {s t : State} (h : ∀ p, s.engineAt p = t.engineAt p) :
    s.writers = t.writers ∧ s.readers = t.readers :=
  ⟨List.ext_getElem? fun k => Option.map_injective Sum.inl_injective (h (.writer k)),
    List.ext_getElem? fun k => Option.map_injective Sum.inr_injective (h (.reader k))⟩

@[simp] theorem State.engineAt_writer (s : State) (k : Nat) : s.engineAt (.writer k) = s.writers[k]?.map .inl := rfl
@[simp] theorem State.engineAt_reader (s : State) (k : Nat) : s.engineAt (.reader k) = s.readers[k]?.map .inr := rfl

/-- A command served at p leaves the engine behind any other port as it is. -/
theorem exec_engineAt_unserved {i : Instr} {s t : State} {p q : Port} (h : exec i { s with serving := p } = .next t)
    (hpq : p ≠ q) : t.engineAt q = s.engineAt q := by
  cases q with
  | writer k => simp [exec_writers_unserved h hpq]
  | reader k => simp [exec_readers_unserved h hpq]

/-- A command served at p does its effect to the engine there, and p gets the response. -/
theorem exec_engineAt_served {i : Instr} {s t : State} {p : Port} (h : exec i { s with serving := p } = .next t) :
    ∃ e, s.engineAt p = some e ∧ t.engineAt p = some (engineEffect s.params i e).1 ∧
      t.responses = s.responses ++ [(p, (engineEffect s.params i e).2)] := by
  rcases exec_next h with ⟨k, w, hsv, rfl⟩ | ⟨k, r, hsv, rfl⟩
  · obtain rfl : p = .writer k := hsv.1
    exact ⟨.inl w, congrArg (Option.map Sum.inl) hsv.2,
      congrArg (Option.map Sum.inl) (hsv.writerResult_self _ _), rfl⟩
  · obtain rfl : p = .reader k := hsv.1
    exact ⟨.inr r, congrArg (Option.map Sum.inr) hsv.2,
      congrArg (Option.map Sum.inr) (hsv.readerResult_self _ _), rfl⟩

/-! ### Two engines -/

/-- A command at q leaves the same registers there and gives the same response before and after a command at another
port. -/
theorem exec_after_other_port {s t t' u : State} {p q : Port} {i j : Instr} (hpq : p ≠ q)
    (hi : exec i { s with serving := p } = .next t) (hj : exec j { t with serving := q } = .next t')
    (hj' : exec j { s with serving := q } = .next u) :
    t'.engineAt q = u.engineAt q ∧
      ∃ r, t'.responses = t.responses ++ [(q, r)] ∧ u.responses = s.responses ++ [(q, r)] := by
  have hpar : t.params = s.params := (exec_frame hi).1
  have hkept : t.engineAt q = s.engineAt q := exec_engineAt_unserved hi hpq
  obtain ⟨e, he, ht', hr⟩ := exec_engineAt_served hj
  obtain ⟨e', he', hu, hr'⟩ := exec_engineAt_served hj'
  have hee : e = e' := Option.some.inj (he.symm.trans (hkept.trans he'))
  subst hee
  rw [hpar] at ht' hr
  exact ⟨ht'.trans hu.symm, _, hr, hr'⟩

theorem State.responsesAt_of_append {s t : State} {new : List (Port × Response)}
    (h : t.responses = s.responses ++ new) (x : Port) :
    t.responsesAt x = s.responsesAt x ++ (new.filter (fun y => decide (y.1 = x))).map (fun y => y.2) := by
  simp [State.responsesAt, h]

/-- Settles O48, port by port: at p and at q each order leaves what the command there does alone. -/
theorem instancesAreIndependent : Obligations.InstancesAreIndependent := by
  intro s t t' u u' p q i j hpq hi hj hj' hi'
  obtain ⟨hq, y, htq, huq⟩ := exec_after_other_port hpq hi hj hj'
  obtain ⟨hp, x, hup, htp⟩ := exec_after_other_port hpq.symm hj' hi' hi
  have hengines : ∀ z, t'.engineAt z = u'.engineAt z := by
    intro z
    by_cases hzq : q = z
    · subst hzq
      exact hq.trans (exec_engineAt_unserved hi' hpq).symm
    · have ht' : t'.engineAt z = t.engineAt z := exec_engineAt_unserved hj hzq
      by_cases hzp : p = z
      · subst hzp
        exact ht'.trans hp.symm
      · have ht : t.engineAt z = s.engineAt z := exec_engineAt_unserved hi hzp
        have hu' : u'.engineAt z = u.engineAt z := exec_engineAt_unserved hi' hzp
        have hu : u.engineAt z = s.engineAt z := exec_engineAt_unserved hj' hzq
        rw [ht', ht, hu', hu]
  obtain ⟨hw, hr⟩ := engines_eq_of_engineAt_eq hengines
  refine ⟨hw, hr, fun z => ?_⟩
  rw [State.responsesAt_of_append htq, State.responsesAt_of_append htp, State.responsesAt_of_append hup,
    State.responsesAt_of_append huq]
  by_cases hz : p = z
  · subst hz
    simp [hpq.symm]
  · simp [hz]

end Sys2Proof.Machine
end

section
/-! PROOF. The command a step carries out, and the order of the responses (20_memory R58, 30_encoding R70, R86). -/

namespace Sys2Proof.Machine

/-! ### The served command -/

theorem serve_of_decode_ok {s : State} {p : Port} {t : Transaction} {i : Instr} {left : List (Port × Transaction)}
    (htake : takeFirst p s.inflight = some (t, left)) (hd : decode t = .ok i) :
    serve p s = exec i { s with inflight := left, serving := p } := by
  simp [serve, State.takeCommand, htake, hd]

theorem step_of_serve {s : State} {p : Port} {rest : List Event} (h : s.agenda = .serve p :: rest) :
    step s = serve p { s with agenda := rest } := by
  simp [step, h]

theorem step_of_empty_agenda {s : State} {p : Port} {t : Transaction} {left : List (Port × Transaction)}
    (h : s.agenda = []) (hfl : s.inflight = (p, t) :: left) : step s = serve p s := by
  simp [step, h, hfl]

/-- Settles O8: with an empty agenda the oldest command of all is the oldest at its own port. -/
theorem stepRunsServedCommand : Obligations.StepRunsServedCommand := by
  refine fun s p t i left hd => ⟨fun rest hserve => ?_, fun hag hfl => ?_⟩
  · obtain ⟨hag, htake⟩ := hserve
    rw [step_of_serve hag]
    exact serve_of_decode_ok htake hd
  · rw [step_of_empty_agenda hag hfl]
    exact serve_of_decode_ok (by rw [hfl, takeFirst_self]) hd

/-! ### The order of the responses -/

/-- From s to t the capacities stay, and at most one command is answered: the oldest in flight at its port, the others
of that port staying in their order (20_memory R58). -/
def AnswersAtMostOldest (s t : State) : Prop :=
  t.params = s.params ∧
    (t.responses = s.responses ∨ ∃ p r tr, t.responses = s.responses ++ [(p, r)] ∧
      (s.inflight.filter (fun x => decide (x.1 = p))).head? = some (p, tr) ∧
      t.inflight.filter (fun x => decide (x.1 = p)) = (s.inflight.filter (fun x => decide (x.1 = p))).tail)

/-- The command taken is the head of those at its port, and the ones left are the tail. -/
theorem filter_of_takeFirst {p : Port} {l left : List (Port × Transaction)} {t : Transaction}
    (h : takeFirst p l = some (t, left)) :
    l.filter (fun x => decide (x.1 = p)) = (p, t) :: left.filter (fun x => decide (x.1 = p)) := by
  obtain ⟨before, after, rfl, rfl, hb⟩ := takeFirst_some h
  have hnone : before.filter (fun x => decide (x.1 = p)) = [] :=
    List.filter_eq_nil_iff.mpr fun x hx => by simpa using hb x hx
  simp [hnone]

/-- Taking the oldest command at p and answering it there. -/
theorem answersAtMostOldest_of_take {p : Port} {s t : State} {tr : Transaction} {left : List (Port × Transaction)}
    {r : Response} (htake : takeFirst p s.inflight = some (tr, left)) (hpar : t.params = s.params)
    (hfl : t.inflight = left) (hresp : t.responses = s.responses ++ [(p, r)]) : AnswersAtMostOldest s t := by
  have hf := filter_of_takeFirst htake
  exact ⟨hpar, .inr ⟨p, r, tr, hresp, by rw [hf]; rfl, by rw [hf, hfl]; rfl⟩⟩

theorem serve_answersAtMostOldest {p : Port} {s t : State} (h : serve p s = .next t) : AnswersAtMostOldest s t := by
  rcases serve_next h with rfl | ⟨tr, left, htake, ⟨i, -, hx⟩ | ⟨e, -, hx⟩⟩
  · exact ⟨rfl, .inl rfl⟩
  · obtain ⟨hpar, -, hfl, -, -, -, r, hresp⟩ := exec_frame hx
    exact answersAtMostOldest_of_take htake hpar hfl hresp
  · obtain ⟨-, rfl⟩ := State.illegal_next hx
    exact answersAtMostOldest_of_take htake rfl rfl rfl

theorem applyReset_params_responses {target : ResetTarget} {s t : State} (h : s.applyReset target = .next t) :
    t.params = s.params ∧ t.responses = s.responses := by
  rcases applyReset_next h with ⟨-, rfl⟩ | ⟨k, -, rfl⟩ | ⟨k, -, rfl⟩ <;> exact ⟨rfl, rfl⟩

/-- Settles O54, by the next event: only a served port answers. -/
theorem responsesInCommandOrder : Obligations.ResponsesInCommandOrder := by
  intro s t h
  change AnswersAtMostOldest s t
  unfold step at h
  split at h
  · split at h
    · cases h
      exact ⟨rfl, .inl rfl⟩
    · exact serve_answersAtMostOldest h
  · obtain ⟨-, rfl⟩ := deliver_next h
    exact ⟨rfl, .inl rfl⟩
  · obtain ⟨hpar, hanswer⟩ := serve_answersAtMostOldest h
    exact ⟨hpar, hanswer⟩
  · obtain ⟨hpar, hresp⟩ := applyReset_params_responses h
    exact ⟨hpar, .inl hresp⟩

end Sys2Proof.Machine
end

section
/-! PROOF. The decoder and the encoder are inverse to each other (30_encoding R73 to R85): a well-formed command is read
back from its encoding, and a transaction that decodes is the encoding of the command it decodes to. -/

namespace Sys2Proof

/-! ### The checks of the decoder -/

/-- A transaction that passes the four checks decodes; the converse of `decode_ok`. -/
theorem decode_of_checks {t : Transaction} {op : Opcode} (ho : opcodeOf t.header = some op)
    (hr : t.header &&& op.reservedMask = 0#32) (hl : t.payload.length = op.payloadWords t.header)
    (hs : op.hasSpan = true → lanesZero t.payload (op.spanLength t.header) = true) :
    decode t = .ok (op.instr t.header t.payload) := by
  have hlanes : (op.hasSpan && !lanesZero t.payload (op.spanLength t.header)) = false := by
    cases hspan : op.hasSpan with
    | false => rfl
    | true => simp [hs hspan]
  simp [decode, ho, hr, hl, hlanes]

theorem Opcode.payloadWords_of_hasSpan {op : Opcode} (h : op.hasSpan = true) (header : Word) :
    op.payloadWords header = spanWords (op.spanLength header) := by
  cases op with
  | wBytes | wStr | rInit => rfl
  | wNew | wBit | wInt | wFinish | rNext => cases h

/-- The decoder accepts a packed span of the length its header announces (30_encoding R79). -/
theorem decode_packWords {header : Word} {op : Opcode} {bytes : List Byte} (ho : opcodeOf header = some op)
    (hr : header &&& op.reservedMask = 0#32) (hspan : op.hasSpan = true) (hn : op.spanLength header = bytes.length) :
    decode ⟨header, packWords bytes⟩ = .ok (op.instr header (packWords bytes)) :=
  decode_of_checks ho hr (by rw [packWords_length, Opcode.payloadWords_of_hasSpan hspan, hn])
    fun _ => by rw [hn, lanesZero_packWords]

/-! ### Decoding an encoding -/

/-- The two payload words of a W_INT hold its value (30_encoding R80). -/
theorem intValue_halves (value : BitVec 64) :
    intValue [value.extractLsb' 32 32, value.extractLsb' 0 32] = value := by
  apply BitVec.eq_of_getLsbD_eq
  intro i hi
  simp only [intValue, List.getD_cons_zero, List.getD_cons_succ, BitVec.getLsbD_or, BitVec.getLsbD_shiftLeft,
    BitVec.getLsbD_setWidth, BitVec.getLsbD_extractLsb']
  by_cases h : i < 32
  · simp [h, hi]
  · simp [h, hi, show i - 32 < 32 by omega, show i - 32 < 64 by omega, show 32 + (i - 32) = i by omega]

theorem decode_encode_wInt (w : BitVec 7) (value : BitVec 64) :
    decode (encode (.wInt w value)) = .ok (.wInt w value) := by
  obtain ⟨-, hr, hw⟩ := header_wInt w
  have hdec := decode_of_checks (t := encode (.wInt w value)) (encodeHeader_wInt w value) hr rfl nofun
  rw [hdec, Opcode.instr, encode, encodeHeader, encodePayload, hw, intValue_halves]

theorem decode_encode_wBytes {bytes : List Byte} (h : bytes.length ≤ Config.wbytesNMax) :
    decode (encode (.wBytes bytes)) = .ok (.wBytes bytes) := by
  obtain ⟨ho, hn⟩ := encodeHeader_wBytes bytes h
  obtain ⟨-, hr, -⟩ := header_wBytes (BitVec.ofNat 24 bytes.length)
  rw [← ofNat_eq_setWidth (by omega) (by unfold Config.wbytesNMax at h; omega)] at hr
  rw [encode, encodePayload, decode_packWords ho hr rfl hn, Opcode.instr, hn, unpack_packWords]

theorem decode_encode_wStr (f : BitVec 12) {text : List Byte} (h : text.length ≤ Config.wstrMax) :
    decode (encode (.wStr f text)) = .ok (.wStr f text) := by
  obtain ⟨ho, hn⟩ := encodeHeader_wStr f text h
  obtain ⟨-, hr, -, hf⟩ := header_wStr (BitVec.ofNat 12 text.length) f
  rw [← ofNat_eq_setWidth (by omega) (by unfold Config.wstrMax at h; omega)] at hr hf
  rw [encode, encodePayload, decode_packWords ho hr rfl hn, Opcode.instr, hn, unpack_packWords, encodeHeader, hf]

theorem decode_encode_rInit (w : BitVec 6) {bytes : List Byte} (h : bytes.length ≤ Config.rinitNMax) :
    decode (encode (.rInit w bytes)) = .ok (.rInit w bytes) := by
  obtain ⟨ho, hn⟩ := encodeHeader_rInit w bytes h
  obtain ⟨-, hw, -⟩ := header_rInit w (BitVec.ofNat 22 bytes.length)
  rw [← ofNat_eq_setWidth (by omega) (by unfold Config.rinitNMax at h; omega)] at hw
  rw [encode, encodePayload, decode_packWords ho (BitVec.and_zero) rfl hn, Opcode.instr, hn, unpack_packWords,
    encodeHeader, hw]

/-- Settles O2, command by command. -/
theorem decodeOfEncode : Obligations.DecodeOfEncode := by
  intro i h
  cases i with
  | wNew => rfl
  | wBit b => cases b <;> rfl
  | wInt w value => exact decode_encode_wInt w value
  | wBytes bytes => exact decode_encode_wBytes (of_decide_eq_true h)
  | wStr f text => exact decode_encode_wStr f (of_decide_eq_true h)
  | wFinish => rfl
  | rInit w bytes => exact decode_encode_rInit w (of_decide_eq_true h)
  | rNext => rfl

/-! ### The header of a transaction that decodes -/

/-- A field of a header splits at any bit. -/
theorem extractLsb'_add (header : Word) (m n : Nat) :
    (header.extractLsb' 0 (m + n)).setWidth 32 =
      (header.extractLsb' m n).setWidth 32 <<< m ||| (header.extractLsb' 0 m).setWidth 32 := by
  apply BitVec.eq_of_getLsbD_eq
  intro i hi
  simp only [BitVec.getLsbD_setWidth, BitVec.getLsbD_extractLsb', BitVec.getLsbD_or, BitVec.getLsbD_shiftLeft]
  by_cases h : i < m
  · simp [h, show i < m + n by omega]
  · simp [h, hi, show m + (i - m) = i by omega, show i - m < 32 by omega, show i < m + n ↔ i - m < n by omega]

/-- How many low header bits carry a format's operands (30_encoding R73 to R78). -/
def Opcode.fieldBits : Opcode → Nat
  | .wNew | .wFinish | .rNext => 0
  | .wBit => 1
  | .wInt => 7
  | .wBytes | .wStr => 24
  | .rInit => 28

theorem Opcode.fieldBits_le (op : Opcode) : op.fieldBits ≤ 28 := by cases op <;> decide

/-- The bits between the operands and the opcode are the reserved ones (30_encoding R82). -/
theorem Opcode.reservedMask_getLsbD (op : Opcode) :
    ∀ i < 28, op.fieldBits ≤ i → op.reservedMask.getLsbD i = true := by
  cases op <;> decide

/-- A header with no reserved bit set is its opcode and its operand bits. -/
theorem eq_opcode_or_fields {header : Word} {op : Opcode} (ho : opcodeOf header = some op)
    (hr : header &&& op.reservedMask = 0#32) :
    op.bits.setWidth 32 <<< 28 ||| (header.extractLsb' 0 op.fieldBits).setWidth 32 = header := by
  rw [← Opcode.ofBits_eq_some.mp ho]
  apply BitVec.eq_of_getLsbD_eq
  intro i hi
  simp only [opcodeBits, BitVec.getLsbD_setWidth, BitVec.getLsbD_extractLsb', BitVec.getLsbD_or,
    BitVec.getLsbD_shiftLeft]
  by_cases h : i < 28
  · by_cases hfield : i < op.fieldBits
    · simp [h, hi, hfield]
    · have hbit : header.getLsbD i = false := by
        simpa [op.reservedMask_getLsbD i h (by omega)] using congrArg (fun v => v.getLsbD i) hr
      simp [h, hfield, hbit]
  · have hle := op.fieldBits_le
    simp [h, hi, show ¬ i < op.fieldBits by omega, show i - 28 < 4 by omega, show i - 28 < 32 by omega,
      show 28 + (i - 28) = i by omega]

/-- The operand bit of W_BIT (30_encoding R74). -/
theorem extractLsb'_zero_one (header : Word) :
    (header.extractLsb' 0 1).setWidth 32 = if header.getLsbD 0 then 1#32 else 0#32 := by
  apply BitVec.eq_of_getLsbD_eq
  intro i hi
  cases h : header.getLsbD 0 <;> by_cases h0 : i = 0 <;> simp_all

/-! ### The payload of a transaction that decodes -/

/-- A payload of the announced length holds the whole span. -/
theorem unpack_length {p : List Word} {n : Nat} (hl : p.length = spanWords n) : (unpack p n).length = n := by
  have hwords : spanWords n = (n + 3) / 4 := rfl
  rw [unpack, List.length_take, payloadBytes_length]
  omega

theorem drop_eq_replicate_of_lanesZero {p : List Word} {n : Nat} (h : lanesZero p n = true) :
    (payloadBytes p).drop n = List.replicate (4 * p.length - n) 0#8 := by
  rw [lanesZero, List.all_eq_true] at h
  exact List.eq_replicate_iff.mpr ⟨by simp, fun b hb => by simpa using h b hb⟩

/-- Packing an unpacked span gives the payload back: its unused lanes are zero, and as many as packing leaves
(30_encoding R79, R81). -/
theorem packWords_unpack {p : List Word} {n : Nat} (hl : p.length = spanWords n) (hz : lanesZero p n = true) :
    packWords (unpack p n) = p := by
  obtain ⟨k, -, hk⟩ := payloadBytes_packWords (unpack p n)
  have hspan := unpack_length hl
  have hlen := congrArg List.length hk
  rw [payloadBytes_length, packWords_length, List.length_append, List.length_replicate, hspan, ← hl] at hlen
  have hlanes : payloadBytes (packWords (unpack p n)) = payloadBytes p := by
    rw [hk, show k = 4 * p.length - n by omega, ← drop_eq_replicate_of_lanesZero hz, unpack, List.take_append_drop]
  rw [← packWords_payloadBytes (packWords (unpack p n)), hlanes, packWords_payloadBytes]

/-- The two words of a W_INT payload are the halves of its value (30_encoding R80). -/
theorem halves_intValue {p : List Word} (hl : p.length = 2) :
    [(intValue p).extractLsb' 32 32, (intValue p).extractLsb' 0 32] = p := by
  obtain ⟨a, b, rfl⟩ := List.length_eq_two.mp hl
  simp only [intValue, List.getD_cons_zero, List.getD_cons_succ, List.cons.injEq, and_true]
  constructor <;>
  · apply BitVec.eq_of_getLsbD_eq
    intro i hi
    simp only [BitVec.getLsbD_extractLsb', BitVec.getLsbD_or, BitVec.getLsbD_shiftLeft, BitVec.getLsbD_setWidth]
    simp [hi, show i < 64 by omega, show 32 + i < 64 by omega]

/-! ### Encoding what was decoded -/

/-- The command read from a header and a payload that pass the checks is encoded as that payload. -/
theorem encodePayload_instr {header : Word} {p : List Word} {op : Opcode} (hl : p.length = op.payloadWords header)
    (hs : op.hasSpan = true → lanesZero p (op.spanLength header) = true) : encodePayload (op.instr header p) = p := by
  cases op with
  | wInt => exact halves_intValue hl
  | wBytes | wStr | rInit => exact packWords_unpack hl (hs rfl)
  | wNew | wBit | wFinish | rNext => exact (List.length_eq_zero_iff.mp hl).symm

/-- The command read from a header and a payload that pass the checks is encoded with that header. -/
theorem encodeHeader_instr {header : Word} {p : List Word} {op : Opcode} (ho : opcodeOf header = some op)
    (hr : header &&& op.reservedMask = 0#32) (hl : p.length = op.payloadWords header) :
    encodeHeader (op.instr header p) = header := by
  have hfields : encodeHeader (op.instr header p) =
      op.bits.setWidth 32 <<< 28 ||| (header.extractLsb' 0 op.fieldBits).setWidth 32 := by
    cases op with
    | wNew | wFinish | rNext => rw [Opcode.fieldBits, BitVec.eq_nil (header.extractLsb' 0 0)]; rfl
    | wBit => rw [Opcode.fieldBits, extractLsb'_zero_one]; rfl
    | wInt => rfl
    | wBytes =>
      rw [Opcode.instr, encodeHeader, unpack_length hl, Opcode.spanLength, BitVec.ofNat_toNat]
      rfl
    | wStr =>
      rw [Opcode.instr, encodeHeader, unpack_length hl, Opcode.spanLength, BitVec.ofNat_toNat, BitVec.or_assoc,
        ← extractLsb'_add]
      rfl
    | rInit =>
      rw [Opcode.instr, encodeHeader, unpack_length hl, Opcode.spanLength, BitVec.ofNat_toNat, BitVec.or_assoc,
        ← extractLsb'_add]
      rfl
  rw [hfields, eq_opcode_or_fields ho hr]

/-- The span lengths a header can announce fit its field, so the command read from it is well formed. -/
theorem wellFormed_instr {header : Word} {p : List Word} {op : Opcode} (hl : p.length = op.payloadWords header) :
    (op.instr header p).wellFormed = true := by
  cases op with
  | wBytes | wStr | rInit => exact decide_eq_true (by rw [unpack_length hl]; exact Nat.le_sub_one_of_lt (BitVec.isLt _))
  | wNew | wBit | wInt | wFinish | rNext => rfl

/-- Settles O3, by the checks that the transaction passed. -/
theorem encodeOfDecode : Obligations.EncodeOfDecode := by
  intro t i h
  obtain ⟨op, ho, hr, hl, hs, rfl⟩ := decode_ok h
  refine ⟨wellFormed_instr hl, ?_⟩
  rw [encode, encodeHeader_instr ho hr hl, encodePayload_instr hl hs]

end Sys2Proof
end

section
/-! PROOF. What the numbers of the spec say of headers and payloads: the opcode, the span length and the word count that
frames a stream (30_encoding R85), and the byte lanes of a span (R79). -/

namespace Sys2Proof.Machine

/-! ### Headers as numbers -/

theorem opNumber_eq_toNat (t : Transaction) : opNumber t = (opcodeBits t.header).toNat := by
  have hlt := t.header.isLt
  rw [opNumber, opcodeBits, BitVec.extractLsb'_toNat, Nat.shiftRight_eq_div_pow]
  omega

/-- The opcode of a header that selects a command is that command's number in the opcode map (30_encoding R72). -/
theorem opNumber_of_opcodeOf {t : Transaction} {op : Opcode} (h : opcodeOf t.header = some op) :
    opNumber t = op.bits.toNat := by
  rw [opNumber_eq_toNat, Opcode.ofBits_eq_some.mp h]

/-- The reserved opcodes are 0x0, 0x7 and 0xA to 0xF (30_encoding R83). -/
theorem Opcode.ofBits_eq_none_iff :
    ∀ b : BitVec 4, Opcode.ofBits b = none ↔ b.toNat = 0 ∨ b.toNat = 7 ∨ 10 ≤ b.toNat := by decide

theorem opcodeOf_eq_none_iff (t : Transaction) :
    opcodeOf t.header = none ↔ opNumber t = 0 ∨ opNumber t = 7 ∨ 10 ≤ opNumber t := by
  rw [opNumber_eq_toNat]
  exact Opcode.ofBits_eq_none_iff _

theorem payloadWords_of_reserved {t : Transaction} (h : opcodeOf t.header = none) : payloadWords t.header = 0 := by
  rw [payloadWords, h]

theorem payloadWords_of_opcodeOf {header : Word} {op : Opcode} (h : opcodeOf header = some op) :
    payloadWords header = op.payloadWords header := by
  rw [payloadWords, h]

/-- The span that R76 to R78 read from the header's numbers is the decoder's. -/
theorem announcedSpan_of_opcodeOf {t : Transaction} {op : Opcode} (h : opcodeOf t.header = some op)
    (hspan : op.hasSpan = true) : announcedSpan t = op.spanLength t.header := by
  have hop := opNumber_of_opcodeOf h
  cases op with
  | wBytes => simp [announcedSpan, hop, Opcode.bits, Opcode.spanLength]
  | wStr => simp [announcedSpan, hop, Opcode.bits, Opcode.spanLength, Nat.shiftRight_eq_div_pow]
  | rInit => simp [announcedSpan, hop, Opcode.bits, Opcode.spanLength]
  | wNew | wBit | wInt | wFinish | rNext => cases hspan

/-- `PayloadWords(H)` is the table of R85. -/
theorem payloadWords_eq_requiredWords (t : Transaction) : payloadWords t.header = requiredWords t := by
  cases h : opcodeOf t.header with
  | none =>
    have hop := (opcodeOf_eq_none_iff t).mp h
    rw [payloadWords_of_reserved h, requiredWords, if_neg (by omega), if_neg (by omega)]
  | some op =>
    have hop := opNumber_of_opcodeOf h
    rw [payloadWords_of_opcodeOf h]
    cases op with
    | wBytes | wStr | rInit =>
      rw [requiredWords, announcedSpan_of_opcodeOf h rfl, hop]
      rfl
    | wNew | wBit | wInt | wFinish | rNext =>
      rw [requiredWords, hop]
      rfl

/-! ### Framing -/

/-- A transaction with the payload words its header calls for is the first one framed (30_encoding R85). -/
theorem frame_cons_append {t : Transaction} (h : t.payload.length = payloadWords t.header) (rest : List Word) :
    frame (t.header :: (t.payload ++ rest)) = some (t, rest) := by
  simp [frame, ← h]

/-- Settles O4: the word count of the decoder is the table's. -/
theorem framingRecoversTransaction : Obligations.FramingRecoversTransaction := by
  refine ⟨payloadWords_eq_requiredWords, fun t rest hl => ?_, fun h rest hop => ?_, fun t i hd => ?_⟩
  · exact frame_cons_append (by rw [hl, payloadWords_eq_requiredWords]) rest
  · have hnone := (opcodeOf_eq_none_iff ⟨h, []⟩).mpr hop
    exact frame_cons_append (t := ⟨h, []⟩) (payloadWords_of_reserved hnone).symm rest
  · obtain ⟨op, ho, -, hl, -, -⟩ := decode_ok hd
    rw [hl, ← payloadWords_of_opcodeOf ho, payloadWords_eq_requiredWords]

/-! ### Byte lanes -/

theorem laneByte_cons_add_four (w : Word) (p : List Word) (k : Nat) : laneByte (w :: p) (k + 4) = laneByte p k := by
  simp [laneByte]

/-- The first four lanes are the bytes of the first word, highest first. -/
theorem wordBytes_getElem?_eq_laneByte (w : Word) (p : List Word) {k : Nat} (h : k < 4) :
    (wordBytes w)[k]? = some (BitVec.ofNat 8 (laneByte (w :: p) k)) := by
  have hlane : BitVec.ofNat 8 (laneByte (w :: p) k) = w.extractLsb' (24 - 8 * k) 8 := by
    apply BitVec.eq_of_toNat_eq
    rw [laneByte, Nat.div_eq_of_lt h, Nat.mod_eq_of_lt h, BitVec.toNat_ofNat, BitVec.extractLsb'_toNat,
      Nat.shiftRight_eq_div_pow]
    exact Nat.mod_mod _ _
  rw [hlane]
  interval_cases k <;> rfl

theorem payloadBytes_getElem? (p : List Word) (k : Nat) (h : k < 4 * p.length) :
    (payloadBytes p)[k]? = some (BitVec.ofNat 8 (laneByte p k)) := by
  induction p generalizing k with
  | nil => simp at h
  | cons w p ih =>
    rw [List.length_cons] at h
    rw [payloadBytes_cons]
    by_cases hk : k < 4
    · rw [List.getElem?_append_left hk, wordBytes_getElem?_eq_laneByte w p hk]
    · obtain ⟨j, rfl⟩ := Nat.exists_eq_add_of_le' (not_lt.mp hk)
      rw [laneByte_cons_add_four, List.getElem?_append_right (Nat.le_add_left 4 j), ← ih j (by omega)]
      rfl

/-- Settles O5: the span is the first lanes of the payload. -/
theorem spanBytesAreLanes : Obligations.SpanBytesAreLanes := by
  intro p n k hk hn
  rw [unpack, List.getElem?_take_of_lt hk, payloadBytes_getElem? p k (by omega)]

/-! ### Words written out from the formats -/

/-- Settles O1, by running the decoder on each word. -/
theorem specWordsDecode : Obligations.SpecWordsDecode := by
  refine ⟨?_, ?_, ?_, ?_, ?_, ?_, ?_, ?_, ?_, ?_⟩ <;> decide

end Sys2Proof.Machine
end

section
/-! PROOF. What is refused at a port whatever else it holds (30_encoding R83), deliveries and waiting (R70,
60_exceptions R170), and the one response of each command (30_encoding R86, 60_exceptions R151). -/

namespace Sys2Proof.Machine

/-! ### Malformed transactions and commands of the other engine kind -/

theorem exec_illegal_of_writer_engine {i : Instr} {s : State} {k : Nat} (he : i.engine = .writer)
    (hs : s.serving = .reader k) : exec i s = s.illegal := by
  rw [exec_of_writer s he, State.onWriter, hs]

theorem exec_illegal_of_reader_engine {i : Instr} {s : State} {k : Nat} (he : i.engine = .reader)
    (hs : s.serving = .writer k) : exec i s = s.illegal := by
  rw [exec_of_reader s he, State.onReader, hs]

/-- The writer's commands have the opcodes 1 to 6 and the reader's 8 and 9 (30_encoding R72). -/
theorem engine_instr (header : Word) (p : List Word) (op : Opcode) :
    ((op.instr header p).engine = .writer ∧ op.bits.toNat ≤ 6) ∨
      ((op.instr header p).engine = .reader ∧ 8 ≤ op.bits.toNat) := by
  cases op with
  | wNew | wBit | wInt | wBytes | wStr | wFinish => exact .inl ⟨rfl, by decide⟩
  | rInit | rNext => exact .inr ⟨rfl, by decide⟩

/-- A transaction that decodes to a command has one of the command's engine's opcodes. -/
theorem engine_of_decode_ok {t : Transaction} {i : Instr} (h : decode t = .ok i) :
    (i.engine = .writer ∧ opNumber t ≤ 6) ∨ (i.engine = .reader ∧ 8 ≤ opNumber t) := by
  obtain ⟨op, ho, -, -, -, rfl⟩ := decode_ok h
  rw [opNumber_of_opcodeOf ho]
  exact engine_instr _ _ op

theorem decode_of_reserved {t : Transaction} (h : opNumber t = 0 ∨ opNumber t = 7 ∨ 10 ≤ opNumber t) :
    decode t = .error .reservedOpcode := by
  rw [decode, (opcodeOf_eq_none_iff t).mpr h]

/-- A served transaction that is malformed, or decodes to a command that the port refuses, is answered with
ILLEGAL_COMMAND and changes no engine (60_exceptions R152). -/
theorem step_eq_refusal {s : State} {p : Port} {t : Transaction} {left : List (Port × Transaction)} {rest : List Event}
    (hserve : s.WillServe p t left rest) (hp : s.hasPort p = true)
    (hill : ∀ i (u : State), decode t = .ok i → u.serving = p → exec i u = u.illegal) :
    step s = .next (s.refusal p left rest .illegalCommand) := by
  obtain ⟨hag, htake⟩ := hserve
  have hans : State.illegal { s with agenda := rest, inflight := left, serving := p } =
      .next (s.refusal p left rest .illegalCommand) :=
    State.illegal_of_hasPort (s := { s with agenda := rest, inflight := left, serving := p })
      ((State.hasPort_congr (s := s) rfl rfl p).trans hp)
  rw [step_of_serve hag, ← hans]
  cases hd : decode t with
  | ok i => rw [serve_of_decode_ok (s := { s with agenda := rest }) htake hd, hill i _ hd rfl]
  | error e => simp [serve, State.takeCommand, htake, hd]

/-- Settles O7: a reserved opcode does not decode, and a command of the other engine kind is refused at the port. -/
theorem reservedAndForeignOpcodesRefused : Obligations.ReservedAndForeignOpcodesRefused := by
  intro s p t left rest hserve hp hop
  refine step_eq_refusal hserve hp fun i u hd hu => ?_
  have hused : ¬ (opNumber t = 0 ∨ opNumber t = 7 ∨ 10 ≤ opNumber t) := fun hres => by
    rw [decode_of_reserved hres] at hd
    cases hd
  rcases hop with h | h | h | ⟨k, rfl, h⟩ | ⟨k, rfl, h⟩
  · exact absurd (.inl h) hused
  · exact absurd (.inr (.inl h)) hused
  · exact absurd (.inr (.inr h)) hused
  · obtain ⟨-, hle⟩ | ⟨he, -⟩ := engine_of_decode_ok hd
    · omega
    · exact exec_illegal_of_reader_engine he hu
  · obtain ⟨he, -⟩ | ⟨-, hge⟩ := engine_of_decode_ok hd
    · exact exec_illegal_of_writer_engine he hu
    · omega

/-! ### Deliveries and waiting -/

theorem serve_of_none_waiting {s : State} {p : Port} (h : ∀ x ∈ s.inflight, x.1 ≠ p) : serve p s = .next s := by
  simp [serve, State.takeCommand, takeFirst_none h]

theorem step_of_deliver {s : State} {p : Port} {t : Transaction} {rest : List Event}
    (h : s.agenda = .deliver p t :: rest) : step s = State.deliver p t { s with agenda := rest } := by
  simp [step, h]

theorem State.deliver_of_hasPort {s : State} {p : Port} (h : s.hasPort p = true) (t : Transaction) :
    s.deliver p t = .next { s with inflight := s.inflight ++ [(p, t)] } := if_pos h

/-- Settles O9, by the next event. -/
theorem deliveryAndWaiting : Obligations.DeliveryAndWaiting := by
  refine ⟨fun s p t rest hag hp => ?_, fun s hag hfl => ?_, fun s p rest hag hnone => ?_⟩
  · rw [step_of_deliver hag]
    exact State.deliver_of_hasPort (s := { s with agenda := rest })
      ((State.hasPort_congr (s := s) rfl rfl p).trans hp) t
  · simp [step, hag, hfl]
  · rw [step_of_serve hag]
    exact serve_of_none_waiting hnone

/-! ### One response per command -/

/-- The DATA of every response but W_FINISH's bytes (30_encoding R86): a word for an R_NEXT that answers OK, and empty
where neither it nor a W_FINISH does. -/
def WordOrEmpty (i : Instr) (r : Response) : Prop :=
  (i = .rNext ∧ r.status = .ok ∧ ∃ v, r.data = .word v) ∨
    (¬ (i = .wFinish ∧ r.status = .ok) ∧ ¬ (i = .rNext ∧ r.status = .ok) ∧ r.data = .empty)

theorem wordOrEmpty_of_not_ok {i : Instr} {r : Response} (hst : r.status ≠ .ok) (hd : r.data = .empty) :
    WordOrEmpty i r := .inr ⟨fun h => hst h.2, fun h => hst h.2, hd⟩

theorem wordOrEmpty_of_empty {i : Instr} {r : Response} (hf : i ≠ .wFinish) (hn : i ≠ .rNext) (hd : r.data = .empty) :
    WordOrEmpty i r := .inr ⟨fun h => hf h.1, fun h => hn h.1, hd⟩

theorem exists_exec_next {s : State} (i : Instr) (h : s.hasPort s.serving = true) : ∃ t, exec i s = .next t := by
  cases hs : s.serving with
  | writer k =>
    rw [hs, State.hasPort_writer, decide_eq_true_iff] at h
    exact ⟨_, exec_at_writer i ⟨hs, List.getElem?_eq_getElem h⟩⟩
  | reader k =>
    rw [hs, State.hasPort_reader, decide_eq_true_iff] at h
    exact ⟨_, exec_at_reader i ⟨hs, List.getElem?_eq_getElem h⟩⟩

theorem writerEffect_data (cap : Nat) (i : Instr) (w : Writer) :
    (i = .wFinish ∧ (writerEffect cap i w).2 = ⟨.ok, .bytes w.buf⟩) ∨ WordOrEmpty i (writerEffect cap i w).2 := by
  rcases writerEffect_cases cap i w with ⟨-, herr, hd⟩ | ⟨rfl, h⟩ | ⟨rfl, -, h⟩ | ⟨-, hf, -, -, h, -⟩
  · exact .inr (wordOrEmpty_of_not_ok (by intro hok; rw [hok] at herr; cases herr) hd)
  · exact .inr (wordOrEmpty_of_empty nofun nofun (by rw [h]; rfl))
  · exact .inl ⟨rfl, by rw [h]⟩
  · exact .inr (wordOrEmpty_of_empty hf (by rintro rfl; cases h) (by rw [h]; rfl))

/-- R_NEXT's loop answers a word, or DONE without data (41_bitfieldreader R132); this holds outside the invariant
too. -/
theorem Reader.pull_response (rest : List Byte) (r : Reader) :
    (∃ v, (r.pull rest).2 = ⟨.ok, .word v⟩) ∨ (r.pull rest).2 = Response.only .done := by
  induction rest generalizing r with
  | nil =>
    unfold Reader.pull
    split
    · exact .inl ⟨_, rfl⟩
    · exact .inr rfl
  | cons b rest ih =>
    unfold Reader.pull
    split
    · exact .inl ⟨_, rfl⟩
    · exact ih (r.shiftIn b)

/-- R_NEXT answers a word with OK, or no data and another status. -/
theorem Reader.cmdNext_response (r : Reader) :
    (∃ v, r.cmdNext.2 = ⟨.ok, .word v⟩) ∨ (r.cmdNext.2.status ≠ .ok ∧ r.cmdNext.2.data = .empty) := by
  cases hp : r.phase with
  | idle => exact .inr (by simp [Reader.cmdNext, hp])
  | exhausted => exact .inr (by simp [Reader.cmdNext, hp])
  | active =>
    rw [Reader.cmdNext_of_active hp]
    rcases Reader.pull_response (r.src.drop r.ridx) r with h | h
    · exact .inl h
    · exact .inr (by simp [h])

theorem Reader.cmdInit_data (cap : Nat) (w : BitVec 6) (bytes : List Byte) (r : Reader) :
    (r.cmdInit cap w bytes).2.data = .empty := by
  unfold Reader.cmdInit
  split
  · rfl
  · split <;> rfl

theorem readerEffect_data (cap : Nat) (i : Instr) (r : Reader) : WordOrEmpty i (readerEffect cap i r).2 := by
  cases i with
  | rInit w bytes => exact wordOrEmpty_of_empty nofun nofun (Reader.cmdInit_data cap w bytes r)
  | rNext =>
    rcases r.cmdNext_response with ⟨v, h⟩ | ⟨hst, hd⟩
    · exact .inl ⟨rfl, congrArg Response.status h, v, congrArg Response.data h⟩
    · exact wordOrEmpty_of_not_ok hst hd
  | wNew | wBit _ | wInt _ _ | wBytes _ | wStr _ _ | wFinish => exact wordOrEmpty_of_not_ok nofun rfl

theorem Status.code_le_seven (st : Status) : st.code.toNat ≤ 7 := by cases st <;> decide

/-- Settles O35: the DATA by what the served engine does. -/
theorem oneResponsePerCommand : Obligations.OneResponsePerCommand := by
  refine ⟨fun s i => exists_exec_next i, fun s t i h => ?_, ⟨rfl, rfl, rfl, rfl, rfl, rfl, rfl, rfl⟩,
    fun _ _ _ r _ _ => r.status.code_le_seven⟩
  rcases exec_next h with ⟨k, w, hsv, rfl⟩ | ⟨k, r, hsv, rfl⟩
  · refine ⟨_, by rw [State.writerResult_responses, hsv.1], ?_⟩
    rcases writerEffect_data s.params.wbufBytes i w with ⟨hi, hr⟩ | hr
    · exact .inl ⟨hi, congrArg Response.status hr, k, w, hsv, congrArg Response.data hr⟩
    · exact .inr hr
  · exact ⟨_, by rw [State.readerResult_responses, hsv.1], .inr (readerEffect_data _ i r)⟩

end Sys2Proof.Machine
end

section
/-! PROOF. The host's `decode_all` loop (30_encoding R89): R_NEXT repeated over a pass returns the fields that are left,
one after another, and exhausts the pass (41_bitfieldreader R132, R133). -/

namespace Sys2Proof.Machine

/-! ### R_NEXT in a pass -/

/-- R_NEXT with a field left returns it and leaves the pass one field further on (41_bitfieldreader R132). -/
theorem Reader.cmdNext_of_room {cap : Nat} {r : Reader} (hi : r.Inv cap) (ha : r.phase = .active)
    (hroom : r.bitCursor + r.fw.toNat ≤ 8 * r.src.length) :
    r.cmdNext.2 = ⟨.ok, .word (BitVec.ofNat 32 (fieldAt r.src r.bitCursor r.fw.toNat))⟩ ∧ r.cmdNext.1.Inv cap ∧
      r.cmdNext.1.phase = .active ∧ r.cmdNext.1.src = r.src ∧ r.cmdNext.1.fw = r.fw ∧
      r.cmdNext.1.bitCursor = r.bitCursor + r.fw.toNat := by
  obtain ⟨hinv, hsrc, hfw, hend⟩ := Reader.pull_spec _ r hi ha rfl
  rw [if_pos hroom] at hend
  obtain ⟨hresp, hphase, hcur⟩ := hend
  rw [Reader.cmdNext_of_active ha]
  exact ⟨hresp, hinv, hphase, hsrc, hfw, hcur⟩

/-- R_NEXT with fewer than FW bits left answers DONE and exhausts the pass (41_bitfieldreader R132). -/
theorem Reader.cmdNext_of_no_room {cap : Nat} {r : Reader} (hi : r.Inv cap) (ha : r.phase = .active)
    (hroom : ¬ r.bitCursor + r.fw.toNat ≤ 8 * r.src.length) :
    r.cmdNext.2 = Response.only .done ∧ r.cmdNext.1.phase = .exhausted := by
  obtain ⟨-, -, -, hend⟩ := Reader.pull_spec _ r hi ha rfl
  rw [if_neg hroom] at hend
  rw [Reader.cmdNext_of_active ha]
  exact ⟨hend.1, hend.2.1⟩

theorem Reader.cmdNext_status_of_not_active {r : Reader} (h : r.phase ≠ .active) : r.cmdNext.2.status ≠ .ok := by
  cases hp : r.phase with
  | idle => simp [Reader.cmdNext, hp]
  | active => exact absurd hp h
  | exhausted => simp [Reader.cmdNext, hp]

/-! ### The loop -/

theorem Reader.drain_succ_of_word {r : Reader} {v : Word} (h : r.cmdNext.2 = ⟨.ok, .word v⟩) (fuel : Nat) :
    Reader.drain (fuel + 1) r =
      ((Reader.drain fuel r.cmdNext.1).1, v :: (Reader.drain fuel r.cmdNext.1).2) := by
  have hpair : r.cmdNext = (r.cmdNext.1, ⟨.ok, .word v⟩) := Prod.ext rfl h
  rw [Reader.drain, hpair]

theorem Reader.drain_succ_of_not_ok {r : Reader} (h : r.cmdNext.2.status ≠ .ok) (fuel : Nat) :
    Reader.drain (fuel + 1) r = (r.cmdNext.1, []) := by
  unfold Reader.drain
  split
  · next heq => exact absurd (by rw [heq]) h
  · next heq => rw [heq]

/-- The loop over a pass with n fields left, and more than n R_NEXTs to spend, returns them and exhausts the pass. -/
theorem Reader.drain_of_active {cap : Nat} (n fuel : Nat) (r : Reader) (hi : r.Inv cap) (ha : r.phase = .active)
    (hn : (8 * r.src.length - r.bitCursor) / r.fw.toNat = n) (hfuel : n < fuel) :
    (Reader.drain fuel r).1.phase = .exhausted ∧ (Reader.drain fuel r).2 =
      (List.range n).map (fun j => BitVec.ofNat 32 (fieldAt r.src (r.bitCursor + j * r.fw.toNat) r.fw.toNat)) := by
  have hfw : 1 ≤ r.fw.toNat := (hi.fw_range (by simp [ha])).1
  obtain ⟨fuel, rfl⟩ := Nat.exists_eq_add_of_le' (Nat.one_le_of_lt hfuel)
  induction n generalizing fuel r with
  | zero =>
    have hshort : 8 * r.src.length - r.bitCursor < r.fw.toNat := (Nat.div_eq_zero_iff_lt hfw).mp hn
    obtain ⟨hresp, hphase⟩ := Reader.cmdNext_of_no_room hi ha (by omega)
    rw [Reader.drain_succ_of_not_ok (by simp [hresp])]
    exact ⟨hphase, rfl⟩
  | succ n ih =>
    have hroom : r.fw.toNat ≤ 8 * r.src.length - r.bitCursor := by
      by_contra hlt
      rw [Nat.div_eq_of_lt (by omega)] at hn
      omega
    obtain ⟨hresp, hinv, hphase, hsrc, hfweq, hcur⟩ := Reader.cmdNext_of_room hi ha (by omega)
    have hleft : (8 * r.cmdNext.1.src.length - r.cmdNext.1.bitCursor) / r.cmdNext.1.fw.toNat = n := by
      rw [hsrc, hfweq, hcur, ← Nat.sub_sub]
      exact Nat.succ.inj ((Nat.div_eq_sub_div hfw hroom).symm.trans hn)
    obtain ⟨fuel, rfl⟩ := Nat.exists_eq_add_of_le' (show 1 ≤ fuel by omega)
    obtain ⟨hend, hwords⟩ := ih r.cmdNext.1 hinv hphase hleft (by rw [hfweq]; exact hfw) fuel (by omega)
    rw [Reader.drain_succ_of_word hresp]
    refine ⟨hend, ?_⟩
    rw [hsrc, hfweq, hcur] at hwords
    rw [List.range_succ_eq_map, List.map_cons, List.map_map, Nat.zero_mul]
    refine congrArg (List.cons _) (hwords.trans (List.map_congr_left fun j _ => ?_))
    rw [Function.comp_apply, Nat.succ_mul, Nat.add_assoc, Nat.add_comm r.fw.toNat]

/-- The loop at a reader with no pass under way ends at the first R_NEXT and changes nothing. -/
theorem Reader.drain_succ_of_not_active {r : Reader} (h : r.phase ≠ .active) (fuel : Nat) :
    Reader.drain (fuel + 1) r = (r, []) := by
  rw [Reader.drain_succ_of_not_ok (Reader.cmdNext_status_of_not_active h), Reader.cmdNext_of_not_active h]

/-- At a reader that meets the invariant the loop has R_NEXTs enough and leaves no pass under way. -/
theorem Reader.drain_phase {cap : Nat} {r : Reader} (hi : r.Inv cap) :
    (Reader.drain (8 * r.src.length + 1) r).1.phase ≠ .active := by
  by_cases ha : r.phase = .active
  · have hle := Nat.div_le_self (8 * r.src.length - r.bitCursor) r.fw.toNat
    obtain ⟨hphase, -⟩ := Reader.drain_of_active _ (8 * r.src.length + 1) r hi ha rfl (by omega)
    simp [hphase]
  · rw [Reader.drain_succ_of_not_active ha]
    exact ha

/-- Settles O42: R_INIT leaves a pass of 8n div W fields, or the registers it found. -/
theorem decodeAllLoopReturnsAllFields : Obligations.DecodeAllLoopReturnsAllFields := by
  refine ⟨fun cap r w bs h1 h2 hcap => ?_, fun cap r w bs hi => ?_⟩
  · have hle := Nat.div_le_self (8 * bs.length) w.toNat
    obtain ⟨hphase, hwords⟩ := Reader.drain_of_active (8 * bs.length / w.toNat) (8 * bs.length + 1)
      (Reader.start w bs) (Reader.start_inv h1 h2 hcap) rfl rfl (by omega)
    rw [Reader.decodeAllLoop, Reader.cmdInit_of_legal r h1 h2 hcap]
    refine ⟨hwords.trans ?_, hphase⟩
    simp [decodeAll, Reader.start, Reader.bitCursor]
  · exact Reader.drain_phase (readerEffect_inv (i := .rInit w bs) hi)

end Sys2Proof.Machine
end

section
/-! PROOF. The assembler: which lines assemble (30_encoding R88), and spans of any length as W_BYTES commands (R89,
R90). -/

namespace Sys2Proof.Machine

/-! ### Numbers as bytes -/

theorem bytesOfNats_cons {n : Nat} (h : n < 256) (ns : List Nat) :
    bytesOfNats (n :: ns) = (bytesOfNats ns).map (fun bs => BitVec.ofNat 8 n :: bs) := if_pos h

theorem bytesOfNats_cons_of_le {n : Nat} (h : 256 ≤ n) (ns : List Nat) : bytesOfNats (n :: ns) = none :=
  if_neg (by omega)

theorem bytesOfNats_length {ns : List Nat} {bs : List Byte} (h : bytesOfNats ns = some bs) : bs.length = ns.length := by
  induction ns generalizing bs with
  | nil => cases h; rfl
  | cons n ns ih =>
    by_cases hn : n < 256
    · rw [bytesOfNats_cons hn] at h
      obtain ⟨bs', hbs, rfl⟩ := Option.map_eq_some_iff.mp h
      simp [ih hbs]
    · rw [bytesOfNats_cons_of_le (by omega)] at h
      cases h

/-- A list with an item above 255 is no byte list (30_encoding R88). -/
theorem bytesOfNats_of_mem {ns : List Nat} {n : Nat} (hmem : n ∈ ns) (hn : 255 < n) : bytesOfNats ns = none := by
  induction ns with
  | nil => cases hmem
  | cons m ns ih =>
    by_cases hm : m < 256
    · have hne : n ≠ m := by omega
      rw [bytesOfNats_cons hm, ih ((List.mem_cons.mp hmem).resolve_left hne), Option.map_none]
    · exact bytesOfNats_cons_of_le (by omega) ns

theorem bytesOfNats_map_toNat (bs : List Byte) : bytesOfNats (bs.map BitVec.toNat) = some bs := by
  induction bs with
  | nil => rfl
  | cons b bs ih =>
    rw [List.map_cons, bytesOfNats_cons b.isLt, ih, Option.map_some, BitVec.ofNat_toNat, BitVec.setWidth_eq]

/-! ### Lines with a span, by the limits of their fields -/

theorem assemble_wbytes {ns : List Nat} (h : ns.length ≤ Config.wbytesNMax) :
    assemble (.wbytes ns) = (bytesOfNats ns).map Instr.wBytes := if_pos h

theorem assemble_wbytes_of_lt {ns : List Nat} (h : Config.wbytesNMax < ns.length) : assemble (.wbytes ns) = none :=
  if_neg (by omega)

theorem assemble_wstr {ns : List Nat} {f : Nat} (h : ns.length ≤ Config.wstrMax ∧ f ≤ Config.wstrMax) :
    assemble (.wstr ns f) = (bytesOfNats ns).map (Instr.wStr (BitVec.ofNat 12 f)) := if_pos h

theorem assemble_wstr_of_lt {ns : List Nat} {f : Nat} (h : Config.wstrMax < ns.length ∨ Config.wstrMax < f) :
    assemble (.wstr ns f) = none := if_neg (by omega)

theorem assemble_rinit {ns : List Nat} {w : Nat} (h : w ≤ 63 ∧ ns.length ≤ Config.rinitNMax) :
    assemble (.rinit w ns) = (bytesOfNats ns).map (Instr.rInit (BitVec.ofNat 6 w)) := if_pos h

theorem assemble_rinit_of_lt {ns : List Nat} {w : Nat} (h : 63 < w ∨ Config.rinitNMax < ns.length) :
    assemble (.rinit w ns) = none := if_neg (by omega)

/-- A line whose list holds an item above 255 does not assemble, whatever its length. -/
theorem assemble_of_bytesOfNats_none {ns : List Nat} (h : bytesOfNats ns = none) :
    assemble (.wbytes ns) = none ∧ (∀ f, assemble (.wstr ns f) = none) ∧ ∀ w, assemble (.rinit w ns) = none := by
  simp [assemble, h]

/-- A line that assembles gives a command whose lengths fit its header (30_encoding R88). -/
theorem wellFormed_of_assemble {x : AsmLine} {i : Instr} (h : assemble x = some i) : i.wellFormed = true := by
  cases x with
  | wnew | wfinish | rnext => cases h; rfl
  | wbits _ | decodeAll _ _ => cases h
  | wbit _ | wint _ _ =>
    obtain ⟨-, h⟩ := Option.ite_none_right_eq_some.mp h
    cases h
    rfl
  | wbytes ns =>
    obtain ⟨hle, h⟩ := Option.ite_none_right_eq_some.mp h
    obtain ⟨bs, hbs, rfl⟩ := Option.map_eq_some_iff.mp h
    exact decide_eq_true (by rw [bytesOfNats_length hbs]; exact hle)
  | wstr ns f =>
    obtain ⟨⟨hle, -⟩, h⟩ := Option.ite_none_right_eq_some.mp h
    obtain ⟨bs, hbs, rfl⟩ := Option.map_eq_some_iff.mp h
    exact decide_eq_true (by rw [bytesOfNats_length hbs]; exact hle)
  | rinit w ns =>
    obtain ⟨⟨-, hle⟩, h⟩ := Option.ite_none_right_eq_some.mp h
    obtain ⟨bs, hbs, rfl⟩ := Option.map_eq_some_iff.mp h
    exact decide_eq_true (by rw [bytesOfNats_length hbs]; exact hle)

/-- Settles O55, line by line. -/
theorem assemblerRejectsWhatDoesNotFit : Obligations.AssemblerRejectsWhatDoesNotFit := by
  refine ⟨fun x i => wellFormed_of_assemble, fun b hb => if_neg (by omega), fun v w h => if_neg (by omega),
    fun bs => assemble_wbytes_of_lt, fun text f => assemble_wstr_of_lt, fun w bs => assemble_rinit_of_lt,
    fun bs n hmem hn => assemble_of_bytesOfNats_none (bytesOfNats_of_mem hmem hn), rfl, rfl, rfl, rfl, rfl,
    fun bs h => ?_, fun v w hv hw => if_pos ⟨hv, hw⟩, fun bs f hl hf => ?_, fun bs w hl hw => ?_⟩
  · rw [assemble_wbytes (by rw [List.length_map]; exact h), bytesOfNats_map_toNat, Option.map_some]
  · rw [assemble_wstr (by rw [List.length_map]; exact ⟨hl, hf⟩), bytesOfNats_map_toNat, Option.map_some]
  · rw [assemble_rinit (by rw [List.length_map]; exact ⟨hw, hl⟩), bytesOfNats_map_toNat, Option.map_some]

/-! ### Spans of any length -/

theorem length_le_of_mem_pieces {m n : Nat} {bs piece : List Byte} (h : piece ∈ pieces m n bs) : piece.length ≤ m := by
  induction n generalizing bs with
  | zero => cases h
  | succ n ih =>
    cases bs with
    | nil => cases h
    | cons b bs =>
      rcases List.mem_cons.mp h with rfl | h
      · exact List.length_take_le _ _
      · exact ih h

/-- The pieces are the whole sequence: each takes at least one element, so their bound is never what ends them. -/
theorem flatten_pieces {m n : Nat} {bs : List Byte} (hm : 0 < m) (hn : bs.length ≤ n) :
    (pieces m n bs).flatten = bs := by
  induction n generalizing bs with
  | zero => exact (List.length_eq_zero_iff.mp (Nat.le_zero.mp hn)).symm
  | succ n ih =>
    cases bs with
    | nil => rfl
    | cons b bs =>
      have hdrop : ((b :: bs).drop m).length ≤ n := by
        rw [List.length_drop]
        omega
      rw [pieces, List.flatten_cons, ih hdrop, List.take_append_drop]

/-- W_BYTES commands append the bits of their pieces. -/
theorem flatMap_appends_wBytes (l : List (List Byte)) :
    (l.map Instr.wBytes).flatMap Instr.appends = bytesToBits l.flatten := by
  induction l with
  | nil => rfl
  | cons piece l ih => rw [List.map_cons, List.flatMap_cons, ih, List.flatten_cons, bytesToBits_append, Instr.appends]

/-- A span's expansion is the W_BYTES of pieces that a header can spell and that make up the span. -/
theorem splitBytes_eq_map (bytes : List Byte) : ∃ l : List (List Byte), splitBytes bytes = l.map Instr.wBytes ∧
    l.flatten = bytes ∧ ∀ piece ∈ l, piece.length ≤ Config.wbytesNMax := by
  by_cases h : bytes.length ≤ Config.wbytesNMax
  · exact ⟨[bytes], if_pos h, by simp, by simpa using h⟩
  · exact ⟨pieces Config.wbytesNMax bytes.length bytes, if_neg h, flatten_pieces (by decide) le_rfl,
      fun _ => length_le_of_mem_pieces⟩

/-- Settles O56, by the pieces. -/
theorem longSpansSplit : Obligations.LongSpansSplit := by
  intro bytes
  obtain ⟨l, hsplit, hflat, hle⟩ := splitBytes_eq_map bytes
  rw [hsplit]
  refine ⟨fun i hi => ?_, by rw [flatMap_appends_wBytes, hflat]⟩
  obtain ⟨piece, hmem, rfl⟩ := List.mem_map.mp hi
  exact ⟨piece, rfl, decide_eq_true (hle piece hmem)⟩

end Sys2Proof.Machine
end

section
/-! SUPPORT. The bits of values and spans in stream order (00_scope R14). -/

namespace Sys2Proof.Machine

theorem bitsOf_eq_map (v w : Nat) : bitsOf v w = (List.range w).map (fun i => v.testBit (w - 1 - i)) := by
  apply List.ext_getElem (by simp)
  intro i hi _
  rw [bitsOf_length] at hi
  have hbit := bitsOf_getElem? v w i hi
  rw [List.getElem?_eq_getElem (by simpa using hi), Option.some.injEq] at hbit
  simpa using hbit

/-- The first m of `m + n` bits are those of the value above its low n. -/
theorem bitsOf_add (v m n : Nat) : bitsOf v (m + n) = bitsOf (v / 2 ^ n) m ++ bitsOf v n := by
  induction m with
  | zero => simp [bitsOf]
  | succ m ih => rw [Nat.succ_add, bitsOf, ih, bitsOf, Nat.testBit_div_two_pow, List.cons_append]

/-- BitsOf reads the low w bits only. -/
theorem bitsOf_mod (v w : Nat) : bitsOf (v % 2 ^ w) w = bitsOf v w := by
  rw [bitsOf_eq_map, bitsOf_eq_map]
  apply List.map_congr_left
  intro i hi
  have hlt := List.mem_range.mp hi
  rw [Nat.testBit_mod_two_pow, decide_eq_true (by omega), Bool.true_and]

/-- The bits of k bytes named one by one: bit i of byte j is element `8 * j + i`. -/
theorem bytesToBits_map_range {k : Nat} {byte : Nat → Byte} {bit : Nat → Bool}
    (h : ∀ j i, j < k → i < 8 → (byte j).getLsbD (7 - i) = bit (8 * j + i)) :
    bytesToBits ((List.range k).map byte) = (List.range (8 * k)).map bit := by
  apply List.ext_getElem (by simp)
  intro p hp _
  have hlt : p < 8 * k := by simpa using hp
  have hget := bytesToBits_getD ((List.range k).map byte) p
  rw [List.getD_eq_getElem _ _ hp] at hget
  have hbit := h (p / 8) (p % 8) (by omega) (by omega)
  rw [show 8 * (p / 8) + p % 8 = p by omega] at hbit
  have hk : p / 8 < k := by omega
  rw [hget, List.getElem_map, List.getElem_range, ← hbit]
  simp [bitAt, List.getD_eq_getElem?_getD, hk]

end Sys2Proof.Machine
end

section
/-! SUPPORT. PutBytes is PutBit of each of its bits, at any writer (40_bitwriter R103, R106). -/

namespace Sys2Proof.Machine

theorem orLast_orLast (a b : Byte) (bs : List Byte) : orLast a (orLast b bs) = orLast (b ||| a) bs := by
  obtain rfl | ⟨init, x, rfl⟩ := List.eq_nil_or_concat bs
  · rfl
  · rw [List.concat_eq_append, orLast_append_singleton, orLast_append_singleton, orLast_append_singleton,
      BitVec.or_assoc]

@[simp] theorem orLast_zero (bs : List Byte) : orLast 0#8 bs = bs := by
  obtain rfl | ⟨init, x, rfl⟩ := List.eq_nil_or_concat bs
  · rfl
  · rw [List.concat_eq_append, orLast_append_singleton, BitVec.or_zero]

/-- At a byte boundary PutBit appends a byte with the bit on top (40_bitwriter R103). -/
theorem Writer.putBit_of_aligned {w : Writer} (h : w.bitlen % 8 = 0) (b : Bool) :
    w.putBit b = { w with buf := w.buf ++ [if b then 0x80#8 else 0x00#8], bitlen := w.bitlen + 1 } := by
  rw [Writer.putBit, if_pos h, h, orLast_append_singleton]
  cases b <;> rfl

/-- Off a byte boundary PutBit ORs the bit into the last byte (40_bitwriter R103). -/
theorem Writer.putBit_of_unaligned {w : Writer} (h : w.bitlen % 8 ≠ 0) (b : Bool) :
    w.putBit b = { w with
      buf := orLast ((if b then 1#8 else 0#8) <<< (7 - w.bitlen % 8)) w.buf, bitlen := w.bitlen + 1 } := by
  rw [Writer.putBit, if_neg h]

@[simp] theorem Writer.putBits_nil (w : Writer) : w.putBits [] = w := rfl

@[simp] theorem Writer.putBits_cons (b : Bool) (bits : List Bool) (w : Writer) :
    w.putBits (b :: bits) = (w.putBit b).putBits bits := rfl

theorem Writer.putBits_append (as bs : List Bool) (w : Writer) :
    w.putBits (as ++ bs) = (w.putBits as).putBits bs := List.foldl_append

/-- The low n bits of v as they lie in a byte whose first `off` bits are taken. -/
def bitsInByte (v n off : Nat) : Byte := BitVec.ofNat 8 (v % 2 ^ n) <<< (8 - off - n)

@[simp] theorem bitsInByte_zero (v off : Nat) : bitsInByte v 0 off = 0#8 := by simp [bitsInByte, Nat.mod_one]

theorem bitsInByte_getLsbD {v n off i : Nat} (hn : off + n ≤ 8) (hi : i < 8) :
    (bitsInByte v n off).getLsbD i =
      (decide (8 - off - n ≤ i ∧ i < 8 - off) && v.testBit (i - (8 - off - n))) := by
  have hlow : i - (8 - off - n) < 8 := by omega
  rw [bitsInByte, BitVec.getLsbD_shiftLeft, BitVec.getLsbD_ofNat, Nat.testBit_mod_two_pow]
  by_cases hge : 8 - off - n ≤ i
  · have hwidth : i - (8 - off - n) < n ↔ i < 8 - off := by omega
    simp [hi, hlow, hge, hwidth]
  · simp [hge, Nat.lt_of_not_le hge]

/-- A bit put in front of the low n bits of v is the bit of v above them. -/
theorem bitsInByte_succ {v n off : Nat} (h : off + n < 8) :
    ((if v.testBit n then 1#8 else 0#8) <<< (7 - off)) ||| bitsInByte v n (off + 1) = bitsInByte v (n + 1) off := by
  apply BitVec.eq_of_getLsbD_eq
  intro i hi
  have hmask := bitMask_getLsbD (v.testBit n) off (7 - i) (by omega)
  rw [show 7 - (7 - i) = i by omega] at hmask
  rw [BitVec.getLsbD_or, hmask, bitsInByte_getLsbD (by omega) hi, bitsInByte_getLsbD (by omega) hi,
    show 8 - (off + 1) - n = 8 - off - (n + 1) by omega]
  by_cases htop : i = 7 - off
  · have hn : i - (8 - off - (n + 1)) = n := by omega
    have hnew : 8 - off - (n + 1) ≤ i ∧ i < 8 - off := by omega
    rw [hn, decide_eq_true hnew, decide_eq_true htop, decide_eq_false (by omega)]
    simp
  · have hsame : 8 - off - (n + 1) ≤ i ∧ i < 8 - (off + 1) ↔ 8 - off - (n + 1) ≤ i ∧ i < 8 - off := by omega
    simp only [htop, decide_false, Bool.and_false, Bool.false_or, hsame]

/-- PutBit of bits that all lie in the last byte ORs them into it. -/
theorem Writer.putBits_of_unaligned {n v : Nat} {w : Writer} (h : n ≤ (8 - w.bitlen % 8) % 8) :
    w.putBits (bitsOf v n) =
      { w with buf := orLast (bitsInByte v n (w.bitlen % 8)) w.buf, bitlen := w.bitlen + n } := by
  induction n generalizing w with
  | zero => simp [bitsOf]
  | succ n ih =>
    have hoff : w.bitlen % 8 ≠ 0 := by omega
    rw [bitsOf, Writer.putBits_cons, ih (by rw [Writer.putBit_bitlen]; omega), Writer.putBit_of_unaligned hoff]
    simp only [orLast_orLast, Writer.mk.injEq, true_and]
    refine ⟨?_, by omega⟩
    cases n with
    | zero => rw [← bitsInByte_succ (n := 0) (by omega)]; simp
    | succ n => rw [show (w.bitlen + 1) % 8 = w.bitlen % 8 + 1 by omega, bitsInByte_succ (by omega)]

/-- PutBit of one to eight bits from a byte boundary on appends the byte that starts with them. -/
theorem Writer.putBits_of_aligned {n v : Nat} {w : Writer} (h : w.bitlen % 8 = 0) (hn : n < 8) :
    w.putBits (bitsOf v (n + 1)) =
      { w with buf := w.buf ++ [bitsInByte v (n + 1) 0], bitlen := w.bitlen + (n + 1) } := by
  rw [bitsOf, Writer.putBits_cons, Writer.putBits_of_unaligned (by rw [Writer.putBit_bitlen]; omega),
    Writer.putBit_of_aligned h, show (w.bitlen + 1) % 8 = 0 + 1 by omega, orLast_append_singleton,
    ← bitsInByte_succ (by omega)]
  simp only [Writer.mk.injEq, List.append_cancel_left_eq, List.cons.injEq, and_true, true_and]
  exact ⟨by cases v.testBit n <;> rfl, by omega⟩

theorem bitsInByte_high (b : Byte) {off : Nat} (h : off < 8) :
    bitsInByte (b.toNat / 2 ^ off) (8 - off) off = b >>> off := by
  apply BitVec.eq_of_getLsbD_eq
  intro i hi
  rw [bitsInByte_getLsbD (by omega) hi, Nat.sub_self, Nat.sub_zero, Nat.testBit_div_two_pow, BitVec.getLsbD_ushiftRight]
  by_cases hlt : i < 8 - off
  · simp [hlt, BitVec.getLsbD, Nat.add_comm]
  · simp [hlt, BitVec.getLsbD_of_ge b (off + i) (by omega)]

theorem bitsInByte_low (b : Byte) {n : Nat} (h : n ≤ 8) : bitsInByte b.toNat n 0 = b <<< (8 - n) := by
  apply BitVec.eq_of_getLsbD_eq
  intro i hi
  rw [bitsInByte_getLsbD (by omega) hi, BitVec.getLsbD_shiftLeft]
  by_cases hle : 8 - n ≤ i
  · simp [hle, hi, BitVec.getLsbD]
  · simp [hle, Nat.lt_of_not_le hle]

theorem Writer.putBytes_nil (w : Writer) : w.putBytes [] = w := by simp [Writer.putBytes]

theorem Writer.putBytes_cons (b : Byte) (bytes : List Byte) (w : Writer) :
    w.putBytes (b :: bytes) = (w.putBytes [b]).putBytes bytes := by
  by_cases h : w.bitlen % 8 = 0
  · simp [Writer.putBytes, h]; omega
  · simp [Writer.putBytes, h]; omega

/-- At a byte boundary PutBytes extends BUF by the bytes themselves (40_bitwriter R106). -/
theorem Writer.putBytes_of_aligned {w : Writer} (h : w.bitlen % 8 = 0) (bytes : List Byte) :
    w.putBytes bytes = { w with buf := w.buf ++ bytes, bitlen := w.bitlen + 8 * bytes.length } := by
  rw [Writer.putBytes, if_pos h]

/-- A byte put whole is its bits put one by one: off a byte boundary the first `8 - off` fill the last byte and the
others start a new one. -/
theorem Writer.putBytes_singleton (b : Byte) (w : Writer) : w.putBytes [b] = w.putBits (bitsOf b.toNat 8) := by
  by_cases h : w.bitlen % 8 = 0
  · rw [Writer.putBits_of_aligned (n := 7) h (by omega), bitsInByte_low b le_rfl, Writer.putBytes_of_aligned h]
    simp
  · obtain ⟨m, hm⟩ : ∃ m, w.bitlen % 8 = m + 1 := Nat.exists_eq_succ_of_ne_zero h
    have hsplit := bitsOf_add b.toNat (8 - (m + 1)) (m + 1)
    have hfill := Writer.putBits_of_unaligned (n := 8 - (m + 1)) (v := b.toNat / 2 ^ (m + 1)) (w := w) (by omega)
    rw [hm, bitsInByte_high b (by omega)] at hfill
    rw [Nat.sub_add_cancel (by omega)] at hsplit
    rw [hsplit, Writer.putBits_append, hfill, Writer.putBits_of_aligned (by dsimp only; omega) (by omega),
      bitsInByte_low b (by omega)]
    simp [Writer.putBytes, hm, splitByte]
    omega

/-- PutBytes is PutBit of the bits of its bytes, at any writer. -/
theorem Writer.putBytes_eq_putBits (bytes : List Byte) (w : Writer) :
    w.putBytes bytes = w.putBits (bytesToBits bytes) := by
  induction bytes generalizing w with
  | nil => exact Writer.putBytes_nil w
  | cons b bytes ih => rw [Writer.putBytes_cons, Writer.putBytes_singleton, ih, bytesToBits_cons, Writer.putBits_append]

end Sys2Proof.Machine
end

section
/-! PROOF. The writer commands one at a time: what each leaves where it succeeds (40_bitwriter R102 to R109), and
commands that agree (R105 to R108). -/

namespace Sys2Proof.Machine

/-! ### An appending command with room -/

theorem Writer.append_of_room {cap k : Nat} {w : Writer} (hp : w.phase = .opened) (hroom : ceil8 (w.bitlen + k) ≤ cap)
    (effect : Writer → Writer) : w.append cap none k effect = (effect w, Response.only .ok) := by
  simp [Writer.append, hp, Writer.fits, hroom]

theorem intWidthCheck_of_legal {w : BitVec 7} (h1 : 1 ≤ w.toNat) (h2 : w.toNat ≤ 64) : intWidthCheck w = none :=
  if_neg (not_or.mpr ⟨Nat.not_lt.mpr h1, Nat.not_lt.mpr h2⟩)

theorem textLengthCheck_of_le {f : BitVec 12} {text : List Byte} (h : text.length ≤ f.toNat) :
    textLengthCheck f text = none :=
  if_neg (Nat.not_lt.mpr h)

section
variable {s : State} {k : Nat} {w : Writer} (hsv : s.ServesWriter k w) (hp : w.phase = .opened)
include hsv hp

/-- W_BIT where it fits is PutBit (40_bitwriter R103). -/
theorem exec_wBit_of_room (b : Bool) (hroom : ceil8 (w.bitlen + 1) ≤ s.params.wbufBytes) :
    exec (.wBit b) s = .next (s.writerResult k (w.putBit b) ⟨.ok, .empty⟩) := by
  rw [exec_at_writer _ hsv, writerEffect, Writer.cmdBit, Writer.append_of_room hp hroom]
  rfl

/-- W_INT of a legal width where it fits is PutBit of the bits of the value (40_bitwriter R104). -/
theorem exec_wInt_of_room {width : BitVec 7} (value : BitVec 64) (h1 : 1 ≤ width.toNat) (h2 : width.toNat ≤ 64)
    (hroom : ceil8 (w.bitlen + width.toNat) ≤ s.params.wbufBytes) :
    exec (.wInt width value) s =
      .next (s.writerResult k (w.putBits (bitsOf value.toNat width.toNat)) ⟨.ok, .empty⟩) := by
  rw [exec_at_writer _ hsv, writerEffect, Writer.cmdInt, intWidthCheck_of_legal h1 h2, Writer.append_of_room hp hroom,
    Writer.putInt_eq_putBits]
  rfl

/-- W_BYTES where it fits is PutBytes (40_bitwriter R106). -/
theorem exec_wBytes_of_room {bytes : List Byte} (hroom : ceil8 (w.bitlen + 8 * bytes.length) ≤ s.params.wbufBytes) :
    exec (.wBytes bytes) s = .next (s.writerResult k (w.putBytes bytes) ⟨.ok, .empty⟩) := by
  rw [exec_at_writer _ hsv, writerEffect, Writer.cmdBytes, Writer.append_of_room hp hroom]
  rfl

end

/-- Settles O14: W_NEW has one outcome. -/
theorem wNewCompletes : Obligations.WNewCompletes := fun _ _ _ hsv => exec_at_writer .wNew hsv

/-- Settles O19: the data is all of BUF. -/
theorem wFinishCompletes : Obligations.WFinishCompletes := by
  intro s k w hsv hp
  rw [exec_at_writer .wFinish hsv]
  simp [writerEffect, Writer.cmdFinish, hp, Writer.memRead]

/-- Settles O15: PutBit at a byte boundary and off one. -/
theorem wBitCompletes : Obligations.WBitCompletes := by
  intro s k w b hsv hp hroom
  rw [exec_wBit_of_room hsv hp b hroom]
  refine ⟨fun haligned => ?_, fun init last hoff hbuf => ?_⟩
  · rw [Writer.putBit_of_aligned haligned, hp]
  · have hmask : (if b then 1#8 else 0#8) <<< (7 - w.bitlen % 8) =
        BitVec.ofNat 8 (b.toNat * 2 ^ (7 - w.bitlen % 8)) := by
      apply BitVec.eq_of_toNat_eq
      cases b <;> simp [Nat.shiftLeft_eq]
    rw [Writer.putBit_of_unaligned hoff, hbuf, orLast_append_singleton, hmask, hp]

/-- Settles O16: the loop of PutBit on a packed stream. -/
theorem wIntCompletes : Obligations.WIntCompletes := by
  intro s k bits w value hsv h1 h2 hroom
  rw [exec_wInt_of_room hsv rfl value h1 h2 hroom, Writer.putBits_pack, bitsOf_length]

/-- Settles O17: PutBytes on a packed stream; whole bytes after a whole number of bytes pack to themselves. -/
theorem wBytesCompletes : Obligations.WBytesCompletes := by
  intro s k bits bytes hsv hroom
  refine ⟨?_, fun haligned => by rw [pack_append_of_aligned haligned, pack_bytesToBits]⟩
  rw [exec_wBytes_of_room hsv rfl hroom, Writer.putBytes_pack]

/-! ### Commands that agree -/

theorem Writer.cmdStr_eq_cmdBytes {cap : Nat} {f : BitVec 12} {text : List Byte} (h : text.length ≤ f.toNat) :
    Writer.cmdStr cap f text = Writer.cmdBytes cap (pad20 text f.toNat) := by
  funext w
  rw [Writer.cmdStr, Writer.cmdBytes, textLengthCheck_of_le h, pad20_length h]

/-- Settles O25: the text passes its check, and the padded text has F bytes. -/
theorem strIsPaddedBytes : Obligations.StrIsPaddedBytes := by
  intro s f text h
  exact congrArg s.onWriter (Writer.cmdStr_eq_cmdBytes h)

/-- Settles O18: W_BYTES of the padded text. -/
theorem wStrCompletes : Obligations.WStrCompletes := by
  intro s k bits f text hsv h hroom
  have hlen := pad20_length h
  rw [strIsPaddedBytes s f text h]
  have hbytes := (wBytesCompletes s k bits (pad20 text f.toNat) hsv (by rwa [hlen])).1
  rwa [hlen] at hbytes

theorem toNat_maskValue (w : Nat) (value : BitVec 64) : (maskValue w value).toNat = value.toNat % 2 ^ w :=
  (BitVec.toNat_ofNat _ _).trans (Nat.mod_eq_of_lt ((Nat.mod_le _ _).trans_lt value.isLt))

/-- W_INT's loop does not read the bits above its width. -/
theorem Writer.putInt_maskValue (w : Nat) (value : BitVec 64) :
    Writer.putInt (maskValue w value) w = Writer.putInt value w := by
  funext wr
  rw [Writer.putInt_eq_putBits, Writer.putInt_eq_putBits, toNat_maskValue, bitsOf_mod]

/-- The top k bytes of a 64-bit value in stream order. -/
theorem bytesToBits_topBytes (a : BitVec 64) {k : Nat} (h : k ≤ 8) :
    bytesToBits (topBytes a k) = (List.range (8 * k)).map (fun i => a.getLsbD (63 - i)) := by
  apply bytesToBits_map_range
  intro j i hj hi
  rw [BitVec.getLsbD_extractLsb', decide_eq_true (by omega), Bool.true_and]
  congr 1
  omega

/-- BitsOf reads the value shifted to the top of 64 bits from its top bit down. -/
theorem bitsOf_eq_map_shiftLeft (value : BitVec 64) {w : Nat} (h : w ≤ 64) :
    bitsOf value.toNat w = (List.range w).map (fun i => (value <<< (64 - w)).getLsbD (63 - i)) := by
  rw [bitsOf_eq_map]
  apply List.map_congr_left
  intro i hi
  have hlt := List.mem_range.mp hi
  have hge : ¬ 63 - i < 64 - w := by omega
  rw [BitVec.getLsbD_shiftLeft, show 63 - i - (64 - w) = w - 1 - i by omega]
  simp [hge, show 63 - i < 64 by omega, BitVec.getLsbD]

/-- The top w bits of a 64-bit value are those of its whole top bytes and then the residual ones (40_bitwriter R105). -/
theorem map_range_eq_topBytes_append (a : BitVec 64) {w : Nat} (h : w ≤ 64) :
    (List.range w).map (fun i => a.getLsbD (63 - i)) =
      bytesToBits (topBytes a (w / 8)) ++ (List.range (w % 8)).map (fun j => a.getLsbD (63 - 8 * (w / 8) - j)) := by
  have hrange : List.range w = List.range (8 * (w / 8)) ++ (List.range (w % 8)).map (8 * (w / 8) + ·) := by
    rw [← List.range_add, Nat.div_add_mod]
  rw [bytesToBits_topBytes _ (by omega), hrange, List.map_append, List.map_map]
  simp only [Nat.sub_sub, Function.comp_def]

/-- The fast path of W_INT puts the bits of its loop (40_bitwriter R105). -/
theorem Writer.putIntFast_eq_putInt (wr : Writer) (value : BitVec 64) {w : Nat} (h : w ≤ 64) :
    wr.putIntFast value w = wr.putInt value w := by
  rw [Writer.putInt_eq_putBits, bitsOf_eq_map_shiftLeft value h, map_range_eq_topBytes_append _ h,
    Writer.putBits_append, ← Writer.putBytes_eq_putBits]
  rfl

/-- Settles O23, by the bits that the two forms put. -/
theorem intTruncationAndFastPath : Obligations.IntTruncationAndFastPath := by
  refine ⟨fun s w value => congrArg s.onWriter ?_, fun wr value w _ h => Writer.putIntFast_eq_putInt wr value h⟩
  funext wr
  rw [Writer.cmdInt, Writer.cmdInt, Writer.putInt_maskValue]

/-- The k low bytes of a value, most significant first, hold its 8k low bits in order. -/
theorem bytesToBits_low (v k : Nat) :
    bytesToBits ((List.range k).map (fun j => BitVec.ofNat 8 (v / 2 ^ (8 * (k - 1 - j))))) = bitsOf v (8 * k) := by
  rw [bitsOf_eq_map]
  apply bytesToBits_map_range
  intro j i hj hi
  rw [BitVec.getLsbD_ofNat, decide_eq_true (by omega), Bool.true_and, Nat.testBit_div_two_pow]
  congr 1
  omega

/-- W_INT of whole bytes is W_BYTES of them on any writer (40_bitwriter R107). -/
theorem Writer.cmdInt_eq_cmdBytes {cap k : Nat} (value : BitVec 64) (h1 : 1 ≤ k) (h8 : k ≤ 8) :
    Writer.cmdInt cap (BitVec.ofNat 7 (8 * k)) value =
      Writer.cmdBytes cap ((List.range k).map (fun j => BitVec.ofNat 8 (value.toNat / 2 ^ (8 * (k - 1 - j))))) := by
  have hwidth : (BitVec.ofNat 7 (8 * k)).toNat = 8 * k := by
    rw [BitVec.toNat_ofNat]
    omega
  funext w
  rw [Writer.cmdInt, Writer.cmdBytes, intWidthCheck_of_legal (by omega) (by omega), hwidth, List.length_map,
    List.length_range]
  congr 1
  funext wr
  rw [Writer.putInt_eq_putBits, Writer.putBytes_eq_putBits, bytesToBits_low]

/-- Settles O24, by the bits that the two commands put, and PutBytes at a byte boundary. -/
theorem wholeByteIntIsBytes : Obligations.WholeByteIntIsBytes := by
  refine ⟨fun s value k h1 h8 => congrArg s.onWriter (Writer.cmdInt_eq_cmdBytes value h1 h8),
    fun s k w bytes hsv hp haligned hroom => ?_⟩
  rw [exec_wBytes_of_room hsv hp hroom, Writer.putBytes_of_aligned haligned, hp]

theorem Writer.putBytes_append (as bs : List Byte) (w : Writer) :
    w.putBytes (as ++ bs) = (w.putBytes as).putBytes bs := by
  simp only [Writer.putBytes_eq_putBits, bytesToBits_append, Writer.putBits_append]

/-- After a command at writer k that port is still served. -/
theorem State.ServesWriter.writerResult {s : State} {k : Nat} {w : Writer} (h : s.ServesWriter k w) (w' : Writer)
    (r : Response) : (s.writerResult k w' r).ServesWriter k w' :=
  ⟨h.1, h.writerResult_self w' r⟩

/-- Settles O26: the parts fit where the whole does, and PutBytes of both is PutBytes of the whole. -/
theorem splitSpansAgree : Obligations.SplitSpansAgree := by
  intro s k w a b hsv hp hroom
  have hlen : (a ++ b).length = a.length + b.length := List.length_append
  have ha := exec_wBytes_of_room hsv hp (bytes := a) ((ceil8_mono (by omega)).trans hroom)
  have hb := exec_wBytes_of_room (hsv.writerResult (w.putBytes a) ⟨.ok, .empty⟩) hp (bytes := b)
    ((ceil8_mono (by rw [Writer.putBytes_bitlen]; omega)).trans hroom)
  refine ⟨_, _, _, ha, hb, exec_wBytes_of_room hsv hp hroom, ?_, rfl, by simp⟩
  simp [Writer.putBytes_append]

end Sys2Proof.Machine
end

section
/-! PROOF. What the writer holds after commands that succeed: BITLEN grows by the bits appended (40_bitwriter R111),
and W_FINISH returns the packed stream (R110). -/

namespace Sys2Proof.Machine

/-! ### The bit position -/

/-- A command answered OK without data is W_NEW or appended its bits. -/
theorem appended_of_ok {cap : Nat} {i : Instr} {w : Writer} (h : (writerEffect cap i w).2 = ⟨.ok, .empty⟩)
    (hn : i ≠ .wNew) : Appended cap i w (writerEffect cap i w) := by
  rcases writerEffect_cases cap i w with ⟨_, herr, _⟩ | ⟨hnew, _⟩ | ⟨_, _, hfin⟩ | ⟨_, _, happ⟩
  · rw [h] at herr
    cases herr
  · exact absurd hnew hn
  · rw [hfin] at h
    cases h
  · exact happ

/-- A response in the machine is the response of the command to the served writer. -/
theorem writerEffect_response {s t : State} {k : Nat} {w : Writer} {i : Instr} {r : Response}
    (hsv : s.ServesWriter k w) (h : exec i s = .next t) (hr : t.responses = s.responses ++ [(.writer k, r)]) :
    (writerEffect s.params.wbufBytes i w).2 = r := by
  rw [exec_at_writer i hsv] at h
  cases h
  simpa using hr

/-- Text answered OK fits its field (60_exceptions R154). -/
theorem text_length_le_of_ok {cap : Nat} {f : BitVec 12} {text : List Byte} {w : Writer}
    (h : (writerEffect cap (.wStr f text) w).2 = ⟨.ok, .empty⟩) : text.length ≤ f.toNat := by
  rw [writerEffect, Writer.cmdStr] at h
  rcases Writer.append_cases cap (textLengthCheck f text) (8 * f.toNat) (Writer.putBytes (pad20 text f.toNat)) w with
    ⟨_, hx⟩ | ⟨_, st, hst, hx⟩ | ⟨_, _, _, hx⟩ | ⟨_, hfit, _, _⟩
  · rw [hx] at h
    cases h
  · have herr := textLengthCheck_isError hst
    rw [hx] at h
    cases h
    cases herr
  · rw [hx] at h
    cases h
  · exact textLengthCheck_none hfit

/-- Settles O27: the length of what a successful command appends. -/
theorem noInterFieldPadding : Obligations.NoInterFieldPadding := by
  intro s t k w w' i hsv h hok hw' hn
  have heff := writerEffect_response hsv h hok
  obtain ⟨-, -, -, -, hlen, -⟩ := appended_of_ok heff hn
  rw [exec_at_writer i hsv] at h
  cases h
  rw [hsv.writerResult_self] at hw'
  cases hw'
  rw [hlen]
  cases i with
  | wStr f text => simp [Instr.appends, pad20_length (text_length_le_of_ok heff)]
  | _ => simp [Instr.appends]

/-! ### Runs of commands -/

theorem execAll_cons_next {i : Instr} {is : List Instr} {s t : State} (h : execAll (i :: is) s = .next t) :
    ∃ u, exec i s = .next u ∧ execAll is u = .next t := by
  rw [execAll] at h
  split at h
  · exact ⟨_, by assumption, h⟩
  · cases h
  · cases h

theorem execAll_cons_of_next {i : Instr} {s u : State} (h : exec i s = .next u) (is : List Instr) :
    execAll (i :: is) s = execAll is u := by
  rw [execAll, h]

theorem execAll_append_of_next {is : List Instr} {s t : State} (h : execAll is s = .next t) (js : List Instr) :
    execAll (is ++ js) s = execAll js t := by
  induction is generalizing s with
  | nil =>
    cases h
    rfl
  | cons i is ih =>
    obtain ⟨u, hi, his⟩ := execAll_cons_next h
    rw [List.cons_append, execAll_cons_of_next hi, ih his]

/-- A run only adds responses. -/
theorem execAll_responses {is : List Instr} {s t : State} (h : execAll is s = .next t) :
    ∃ rs, t.responses = s.responses ++ rs := by
  induction is generalizing s with
  | nil =>
    cases h
    exact ⟨[], by simp⟩
  | cons i is ih =>
    obtain ⟨u, hi, his⟩ := execAll_cons_next h
    obtain ⟨-, -, -, -, -, -, r, hr⟩ := exec_frame hi
    obtain ⟨rs, hrs⟩ := ih his
    exact ⟨(s.serving, r) :: rs, by rw [hrs, hr, List.append_assoc, List.singleton_append]⟩

/-- Where every command of a run answers x, the first does and so do all the others. -/
theorem responses_of_execAll_cons {i : Instr} {is : List Instr} {s u t : State} {x : Port × Response}
    (hi : exec i s = .next u) (his : execAll is u = .next t)
    (hr : t.responses = s.responses ++ List.replicate (i :: is).length x) :
    u.responses = s.responses ++ [x] ∧ t.responses = u.responses ++ List.replicate is.length x := by
  obtain ⟨-, -, -, -, -, -, r, hu⟩ := exec_frame hi
  obtain ⟨rs, ht⟩ := execAll_responses his
  rw [ht, hu, List.append_assoc, List.append_cancel_left_eq, List.length_cons, List.replicate_succ,
    List.singleton_append, List.cons.injEq] at hr
  obtain ⟨rfl, rfl⟩ := hr
  exact ⟨hu, ht⟩

/-- A run of commands that all answer OK without data, with no W_NEW, packs what they append after what was there. -/
theorem execAll_packs {k : Nat} {is : List Instr} {s t : State} {bits : List Bool}
    (hsv : s.ServesWriter k ⟨.opened, pack bits, bits.length⟩) (hn : ∀ i ∈ is, i ≠ .wNew)
    (h : execAll is s = .next t)
    (hr : t.responses = s.responses ++ List.replicate is.length (.writer k, ⟨.ok, .empty⟩)) :
    t.ServesWriter k
      ⟨.opened, pack (bits ++ is.flatMap Instr.appends), (bits ++ is.flatMap Instr.appends).length⟩ := by
  induction is generalizing s bits with
  | nil =>
    cases h
    simpa using hsv
  | cons i is ih =>
    obtain ⟨hi, hnis⟩ := List.forall_mem_cons.mp hn
    obtain ⟨u, hu, his⟩ := execAll_cons_next h
    obtain ⟨hru, hrt⟩ := responses_of_execAll_cons hu his hr
    obtain ⟨-, -, -, -, -, happ⟩ := appended_of_ok (writerEffect_response hsv hu hru) hi
    have husv : u.ServesWriter k ⟨.opened, pack (bits ++ i.appends), (bits ++ i.appends).length⟩ := by
      rw [exec_at_writer i hsv, happ bits rfl] at hu
      cases hu
      rw [List.length_append]
      exact hsv.writerResult _ _
    simpa only [List.flatMap_cons, List.append_assoc] using ih husv hnis his hrt

/-- W_BITs that all fit all answer OK (40_bitwriter R103). -/
theorem execAll_wBits_ok {k : Nat} {bits : List Bool} {s : State} {w : Writer} (hsv : s.ServesWriter k w)
    (hp : w.phase = .opened) (hroom : ceil8 (w.bitlen + bits.length) ≤ s.params.wbufBytes) :
    ∃ t, execAll (bits.map Instr.wBit) s = .next t ∧
      t.responses = s.responses ++ List.replicate bits.length (.writer k, ⟨.ok, .empty⟩) := by
  induction bits generalizing s w with
  | nil => exact ⟨s, rfl, by simp⟩
  | cons b bits ih =>
    rw [List.length_cons] at hroom
    have hb := exec_wBit_of_room hsv hp b ((ceil8_mono (by omega)).trans hroom)
    obtain ⟨t, ht, hr⟩ := ih (hsv.writerResult (w.putBit b) ⟨.ok, .empty⟩) hp
      ((ceil8_mono (by rw [Writer.putBit_bitlen]; omega)).trans hroom)
    refine ⟨t, by rw [List.map_cons, execAll_cons_of_next hb, ht], ?_⟩
    rw [hr, State.writerResult_responses, List.length_cons, List.replicate_succ, List.append_assoc,
      List.singleton_append]

/-- After such a run from an empty open writer W_FINISH hands out the packed stream (40_bitwriter R110). -/
theorem exec_wFinish_of_run {k : Nat} {is : List Instr} {s t : State} (hsv : s.ServesWriter k ⟨.opened, [], 0⟩)
    (hn : ∀ i ∈ is, i ≠ .wNew) (h : execAll is s = .next t)
    (hr : t.responses = s.responses ++ List.replicate is.length (.writer k, ⟨.ok, .empty⟩)) :
    ∃ u, exec .wFinish t = .next u ∧
      u.responses = t.responses ++ [(.writer k, ⟨.ok, .bytes (pack (is.flatMap Instr.appends))⟩)] :=
  ⟨_, wFinishCompletes t k _ (execAll_packs (bits := []) hsv hn h hr) rfl, rfl⟩

/-- Settles O28: the run leaves the packed stream in BUF, and W_FINISH hands it out. -/
theorem finishReturnsPackedStream : Obligations.FinishReturnsPackedStream := by
  refine ⟨fun s t k is hsv hn h hr => exec_wFinish_of_run hsv hn h hr, fun s k bits hsv hroom => ?_⟩
  obtain ⟨t, ht, hr⟩ := execAll_wBits_ok hsv rfl (by simpa using hroom)
  have hn : ∀ i ∈ bits.map Instr.wBit, i ≠ .wNew := List.forall_mem_map.mpr fun _ _ => nofun
  obtain ⟨u, hu, hru⟩ := exec_wFinish_of_run hsv hn ht (by simpa using hr)
  have hbits : (bits.map Instr.wBit).flatMap Instr.appends = bits := by
    simp [List.flatMap_map, Instr.appends]
  refine ⟨u, ?_, by rw [hru, hr, hbits]⟩
  rw [execAll_append_of_next ht, execAll_cons_of_next hu]
  rfl

end Sys2Proof.Machine
end

section
/-! PROOF. A reader's pass (41_bitfieldreader R131 to R133): R_INIT starts it, each R_NEXT returns the next field while
FW bits are left, and from then on every R_NEXT answers DONE. -/

namespace Sys2Proof.Machine

/-! ### One command at a served reader -/

/-- After a command at reader k that port is still served. -/
theorem State.ServesReader.readerResult {s : State} {k : Nat} {r : Reader} (h : s.ServesReader k r) (r' : Reader)
    (x : Response) : (s.readerResult k r' x).ServesReader k r' :=
  ⟨h.1, h.readerResult_self r' x⟩

theorem exec_rNext_serves {s : State} {k : Nat} {r : Reader} (hsv : s.ServesReader k r) :
    exec .rNext s = .next (s.readerResult k r.cmdNext.1 r.cmdNext.2) := exec_at_reader .rNext hsv

/-- Settles O36: the width and the length pass their checks. -/
theorem rInitCompletes : Obligations.RInitCompletes := by
  intro s k r w bytes hsv h1 h2 hcap
  rw [exec_at_reader (.rInit w bytes) hsv, readerEffect, Reader.cmdInit_of_legal r h1 h2 hcap]
  rfl

theorem Reader.cmdNext_of_exhausted {r : Reader} (h : r.phase = .exhausted) :
    r.cmdNext = (r, Response.only .done) := by simp [Reader.cmdNext, h]

/-- Settles O38: the loop's outcome, with HELD and ACC by the invariant of the registers it leaves. -/
theorem rNextDone : Obligations.RNextDone := by
  refine ⟨fun s k r hsv hi ha hshort => ?_, fun s k r hsv hex => ?_⟩
  · obtain ⟨hinv, hsrc, hfw, hend⟩ := Reader.pull_spec _ r hi ha rfl
    rw [if_neg (by omega)] at hend
    obtain ⟨hresp, hphase, hcur, hridx⟩ := hend
    have hexec := exec_rNext_serves hsv
    rw [Reader.cmdNext_of_active ha, hresp] at hexec
    refine ⟨_, hexec, hphase, hsrc, hfw, hcur, hridx, ?_, ?_⟩
    · have hle := hinv.held_le
      rw [← hcur, Reader.bitCursor, ← hridx]
      omega
    · rw [hinv.acc_eq_fieldAt_bitCursor, hsrc, hcur]
  · rw [exec_rNext_serves hsv, Reader.cmdNext_of_exhausted hex]
    rfl

/-! ### The bytes one R_NEXT shifts in -/

/-- The loop of R_NEXT shifts in at most the bytes that make `HELD >= FW`; this holds outside the invariant too. -/
theorem Reader.pull_ridx_bounds (rest : List Byte) (r : Reader) (hfw : r.fw.toNat ≤ 32) :
    r.ridx ≤ (r.pull rest).1.ridx ∧ (r.pull rest).1.ridx ≤ r.ridx + ceil8 (r.fw.toNat - r.held.toNat) := by
  induction rest generalizing r with
  | nil =>
    unfold Reader.pull
    split
    · exact ⟨le_rfl, Nat.le_add_right _ _⟩
    · exact ⟨le_rfl, Nat.le_add_right _ _⟩
  | cons b rest ih =>
    unfold Reader.pull
    split
    · exact ⟨le_rfl, Nat.le_add_right _ _⟩
    · next hlt =>
      have h := ih (r.shiftIn b) hfw
      rw [Reader.shiftIn_held_toNat b (by omega) hfw, Reader.shiftIn_ridx, Reader.shiftIn_fw] at h
      simp only [ceil8] at h ⊢
      omega

/-- Settles O39: the loop needs FW - HELD more bits, and outside a pass R_NEXT keeps RIDX. -/
theorem rNextShiftsBoundedBytes : Obligations.RNextShiftsBoundedBytes := by
  intro s t k r r' hsv hfw h hr'
  rw [exec_rNext_serves hsv] at h
  cases h
  rw [hsv.readerResult_self] at hr'
  cases hr'
  by_cases ha : r.phase = .active
  · rw [Reader.cmdNext_of_active ha]
    obtain ⟨hlo, hhi⟩ := Reader.pull_ridx_bounds (r.src.drop r.ridx) r hfw
    have hmono := ceil8_mono (Nat.sub_le r.fw.toNat r.held.toNat)
    omega
  · rw [Reader.cmdNext_of_not_active ha]
    exact ⟨le_rfl, Nat.le_add_right _ _⟩

/-! ### A pass -/

/-- The reader is in a pass over bs at width w, with bit p the next to be returned. -/
structure Reader.InPass (cap : Nat) (bs : List Byte) (w : BitVec 6) (p : Nat) (r : Reader) : Prop where
  inv : r.Inv cap
  active : r.phase = .active
  src_eq : r.src = bs
  fw_eq : r.fw = w
  cursor_eq : r.bitCursor = p

theorem Reader.start_inPass {cap : Nat} {bs : List Byte} {w : BitVec 6} (h1 : 1 ≤ w.toNat) (h2 : w.toNat ≤ 32)
    (hcap : bs.length ≤ cap) : (Reader.start w bs).InPass cap bs w 0 :=
  ⟨Reader.start_inv h1 h2 hcap, rfl, rfl, rfl, rfl⟩

section
variable {s : State} {k cap p : Nat} {r : Reader} {bs : List Byte} {w : BitVec 6} (hsv : s.ServesReader k r)
include hsv

/-- An R_NEXT with a field left returns it, and the pass goes on behind it. -/
theorem Reader.InPass.exec_rNext (h : r.InPass cap bs w p) (hroom : p + w.toNat ≤ 8 * bs.length) :
    ∃ t r', exec .rNext s = .next t ∧ t.ServesReader k r' ∧ r'.InPass cap bs w (p + w.toNat) ∧
      t.responses = s.responses ++ [(.reader k, ⟨.ok, .word (BitVec.ofNat 32 (fieldAt bs p w.toNat))⟩)] := by
  obtain ⟨hi, ha, rfl, rfl, rfl⟩ := h
  obtain ⟨hresp, hinv, hactive, hsrc, hfw, hcur⟩ := Reader.cmdNext_of_room hi ha hroom
  exact ⟨_, _, exec_rNext_serves hsv, hsv.readerResult _ _, ⟨hinv, hactive, hsrc, hfw, hcur⟩,
    by rw [State.readerResult_responses, hresp]⟩

/-- n R_NEXTs with n fields left return them in order. -/
theorem Reader.InPass.execAll_rNext (h : r.InPass cap bs w p) (n : Nat) (hroom : p + n * w.toNat ≤ 8 * bs.length) :
    ∃ t r', execAll (List.replicate n .rNext) s = .next t ∧ t.ServesReader k r' ∧
      r'.InPass cap bs w (p + n * w.toNat) ∧ t.responses = s.responses ++ (List.range n).map
        (fun i => (.reader k, ⟨.ok, .word (BitVec.ofNat 32 (fieldAt bs (p + i * w.toNat) w.toNat))⟩)) := by
  induction n with
  | zero => exact ⟨s, r, rfl, hsv, by simpa using h, by simp⟩
  | succ n ih =>
    rw [Nat.succ_mul, ← Nat.add_assoc] at hroom ⊢
    obtain ⟨t, r', ht, htsv, htp, htr⟩ := ih (by omega)
    obtain ⟨u, r'', hu, husv, hup, hur⟩ := htp.exec_rNext htsv hroom
    refine ⟨u, r'', ?_, husv, hup, ?_⟩
    · rw [List.replicate_succ', execAll_append_of_next ht, execAll_cons_of_next hu]
      rfl
    · rw [hur, htr, List.range_succ, List.map_append, List.append_assoc]
      rfl

/-- Once an R_NEXT answers DONE and leaves the reader exhausted, every later one answers DONE too. -/
theorem execAll_rNext_done (hdone : r.cmdNext.2 = Response.only .done) (hex : r.cmdNext.1.phase = .exhausted)
    (n : Nat) : ∃ t, execAll (List.replicate n .rNext) s = .next t ∧
      t.responses = s.responses ++ List.replicate n (.reader k, ⟨.done, .empty⟩) := by
  induction n generalizing s r with
  | zero => exact ⟨s, rfl, by simp⟩
  | succ n ih =>
    have hnext := Reader.cmdNext_of_exhausted hex
    obtain ⟨t, ht, htr⟩ := ih (hsv.readerResult r.cmdNext.1 r.cmdNext.2) (by rw [hnext]) (by rw [hnext, hex])
    refine ⟨t, by rw [List.replicate_succ, execAll_cons_of_next (exec_rNext_serves hsv), ht], ?_⟩
    rw [htr, State.readerResult_responses, hdone, List.append_assoc]
    rfl

end

/-- Settles O41: 8n div W fields fit in the source and one more does not. -/
theorem passYieldsDecodeAll : Obligations.PassYieldsDecodeAll := by
  intro s k r w bs extra hsv h1 h2 hcap
  have hsv0 := hsv.readerResult (Reader.start w bs) ⟨.ok, .empty⟩
  have hfits := Nat.div_mul_le_self (8 * bs.length) w.toNat
  obtain ⟨t, r', ht, htsv, htp, htr⟩ := (Reader.start_inPass h1 h2 hcap).execAll_rNext hsv0
    (8 * bs.length / w.toNat) (by omega)
  have hshort : ¬ r'.bitCursor + r'.fw.toNat ≤ 8 * r'.src.length := by
    have hlt := Nat.lt_div_mul_add (a := 8 * bs.length) h1
    rw [htp.cursor_eq, htp.fw_eq, htp.src_eq]
    omega
  obtain ⟨hdone, hex⟩ := Reader.cmdNext_of_no_room htp.inv htp.active hshort
  obtain ⟨u, hu, hur⟩ := execAll_rNext_done htsv hdone hex extra
  refine ⟨u, ?_, ?_⟩
  · rw [execAll_cons_of_next (rInitCompletes s k r w bs hsv h1 h2 hcap), List.replicate_add]
    exact (execAll_append_of_next ht _).trans hu
  · rw [hur, htr]
    simp only [Nat.zero_add, State.readerResult_responses]

end Sys2Proof.Machine
end

section
/-! PROOF. The round trips (41_bitfieldreader R136, R137): the fields written by W_INT stand in the finished data, and
a pass of one width returns them. -/

namespace Sys2Proof.Machine

/-! ### The fields in the finished data -/

/-- The stream of fields of any widths written back to back (40_bitwriter R110). -/
def fieldBits (fields : List (BitVec 64 × BitVec 7)) : List Bool :=
  fields.flatMap (fun x => bitsOf x.1.toNat x.2.toNat)

theorem fieldBits_length (fields : List (BitVec 64 × BitVec 7)) :
    (fieldBits fields).length = (fields.map (fun x => x.2.toNat)).sum := by
  simp [fieldBits, List.length_flatMap]

/-- The stream of the W_INT commands is the stream of their fields. -/
theorem flatMap_appends_wInt (fields : List (BitVec 64 × BitVec 7)) :
    (fields.map (fun x => Instr.wInt x.2 x.1)).flatMap Instr.appends = fieldBits fields := by
  rw [List.flatMap_map]
  rfl

/-- Field i stands behind the fields before it, masked to its width (41_bitfieldreader R137). -/
theorem fieldAt_pack_fieldBits {fields : List (BitVec 64 × BitVec 7)} {i : Nat} {x : BitVec 64 × BitVec 7}
    (hx : fields[i]? = some x) :
    fieldAt (pack (fieldBits fields)) ((fields.take i).map (fun y => y.2.toNat)).sum x.2.toNat =
      x.1.toNat % 2 ^ x.2.toNat := by
  obtain ⟨hi, rfl⟩ := List.getElem?_eq_some_iff.mp hx
  have hsplit : fieldBits fields = fieldBits (fields.take i) ++ bitsOf fields[i].1.toNat fields[i].2.toNat ++
      fieldBits (fields.drop (i + 1)) := by
    conv_lhs => rw [← List.take_append_drop i fields, List.drop_eq_getElem_cons hi]
    simp only [fieldBits, List.flatMap_append, List.flatMap_cons, List.append_assoc]
  rw [hsplit, ← fieldBits_length]
  exact fieldAt_pack _ _ _ _

/-- A field behind the end of a packed stream is zero (10_state R23). -/
theorem fieldAt_pack_of_length_le {bits : List Bool} {p : Nat} (h : bits.length ≤ p) (w : Nat) :
    fieldAt (pack bits) p w = 0 := by
  induction w with
  | zero => rfl
  | succ w ih => rw [fieldAt_succ, ih, bitAt_pack, List.getD_eq_default _ _ (by omega)]; rfl

/-! ### Writing the fields -/

/-- W_INTs of legal widths that all fit all answer OK (40_bitwriter R104). -/
theorem execAll_wInts_ok {k : Nat} {fields : List (BitVec 64 × BitVec 7)} {s : State} {w : Writer}
    (hlegal : ∀ x ∈ fields, 1 ≤ x.2.toNat ∧ x.2.toNat ≤ 64) (hsv : s.ServesWriter k w) (hp : w.phase = .opened)
    (hroom : ceil8 (w.bitlen + (fields.map (fun x => x.2.toNat)).sum) ≤ s.params.wbufBytes) :
    ∃ t, execAll (fields.map (fun x => .wInt x.2 x.1)) s = .next t ∧
      t.responses = s.responses ++ List.replicate fields.length (.writer k, ⟨.ok, .empty⟩) := by
  induction fields generalizing s w with
  | nil => exact ⟨s, rfl, by simp⟩
  | cons x fields ih =>
    obtain ⟨⟨h1, h2⟩, hrest⟩ := List.forall_mem_cons.mp hlegal
    rw [List.map_cons, List.sum_cons, ← Nat.add_assoc] at hroom
    have hx := exec_wInt_of_room hsv hp x.1 h1 h2 ((ceil8_mono (by omega)).trans hroom)
    obtain ⟨hphase, hlen⟩ := Writer.putBits_phase_bitlen (bitsOf x.1.toNat x.2.toNat) w
    rw [bitsOf_length] at hlen
    obtain ⟨t, ht, hr⟩ := ih hrest (hsv.writerResult _ ⟨.ok, .empty⟩) (hphase.trans hp) (by rw [hlen]; exact hroom)
    refine ⟨t, by rw [List.map_cons, execAll_cons_of_next hx, ht], ?_⟩
    rw [hr, State.writerResult_responses, List.append_assoc]
    rfl

/-- Fields that fit, written to an empty open writer, are handed out by W_FINISH as their packed stream. -/
theorem execAll_wInts_wFinish {k : Nat} {fields : List (BitVec 64 × BitVec 7)} {s : State}
    (hlegal : ∀ x ∈ fields, 1 ≤ x.2.toNat ∧ x.2.toNat ≤ 64) (hsv : s.ServesWriter k ⟨.opened, [], 0⟩)
    (hroom : ceil8 ((fields.map (fun x => x.2.toNat)).sum) ≤ s.params.wbufBytes) :
    ∃ t, execAll (fields.map (fun x => .wInt x.2 x.1) ++ [.wFinish]) s = .next t ∧
      t.responses = s.responses ++ List.replicate fields.length (.writer k, ⟨.ok, .empty⟩) ++
        [(.writer k, ⟨.ok, .bytes (pack (fieldBits fields))⟩)] := by
  obtain ⟨t, ht, hr⟩ := execAll_wInts_ok hlegal hsv rfl (by simpa using hroom)
  have hn : ∀ i ∈ fields.map (fun x => Instr.wInt x.2 x.1), i ≠ .wNew := List.forall_mem_map.mpr fun _ _ => nofun
  obtain ⟨u, hu, hur⟩ := exec_wFinish_of_run hsv hn ht (by simpa using hr)
  refine ⟨u, ?_, by rw [hur, hr, flatMap_appends_wInt]⟩
  rw [execAll_append_of_next ht, execAll_cons_of_next hu]
  rfl

/-- Settles O44: the data is the packed stream of the fields. -/
theorem roundTripAtMixedWidths : Obligations.RoundTripAtMixedWidths := by
  intro s k fields hlegal hsv hroom
  obtain ⟨t, ht, hr⟩ := execAll_wInts_wFinish hlegal hsv hroom
  exact ⟨t, _, ht, hr, fun i x hx => fieldAt_pack_fieldBits hx⟩

/-! ### Reading fields of one width back -/

/-- A run of writer commands reaches no reader and no capacity. -/
theorem execAll_readers_params {is : List Instr} {s t : State} (hw : ∀ i ∈ is, i.engine = .writer)
    (h : execAll is s = .next t) : t.readers = s.readers ∧ t.params = s.params := by
  induction is generalizing s with
  | nil =>
    cases h
    exact ⟨rfl, rfl⟩
  | cons i is ih =>
    obtain ⟨hi, his⟩ := List.forall_mem_cons.mp hw
    obtain ⟨u, hu, hrest⟩ := execAll_cons_next h
    obtain ⟨hr, hp⟩ := ih his hrest
    exact ⟨hr.trans (exec_readers_of_writer_engine hi hu), hp.trans (exec_frame hu).1⟩

/-- Values as fields of one width. -/
def fieldsOfWidth (w : Nat) (values : List (BitVec 64)) : List (BitVec 64 × BitVec 7) :=
  values.map (fun v => (v, BitVec.ofNat 7 w))

theorem take_fieldsOfWidth (w i : Nat) (values : List (BitVec 64)) :
    (fieldsOfWidth w values).take i = fieldsOfWidth w (values.take i) := List.map_take.symm

section
variable {w : Nat} (hw : w ≤ 32)
include hw

theorem fieldsOfWidth_sum (values : List (BitVec 64)) :
    ((fieldsOfWidth w values).map (fun x => x.2.toNat)).sum = values.length * w := by
  simp [fieldsOfWidth, Function.comp_def, Nat.mod_eq_of_lt (show w < 128 by omega)]

theorem fieldsOfWidth_legal (h1 : 1 ≤ w) (values : List (BitVec 64)) :
    ∀ x ∈ fieldsOfWidth w values, 1 ≤ x.2.toNat ∧ x.2.toNat ≤ 64 := by
  refine List.forall_mem_map.mpr fun v _ => ?_
  rw [BitVec.toNat_ofNat]
  omega

/-- The fields of the finished data are the masked values and then the zeros of the tail padding. -/
theorem range_map_fieldAt_pack {α : Type} (response : Nat → α) (values : List (BitVec 64)) (m : Nat) :
    (List.range (values.length + m)).map
        (fun i => response (fieldAt (pack (fieldBits (fieldsOfWidth w values))) (i * w) w)) =
      values.map (fun v => response (v.toNat % 2 ^ w)) ++ List.replicate m (response 0) := by
  apply List.ext_getElem
  · simp
  intro i hi _
  rw [List.getElem_map, List.getElem_range]
  by_cases hlt : i < values.length
  · have hx : (fieldsOfWidth w values)[i]? = some (values[i], BitVec.ofNat 7 w) := by simp [fieldsOfWidth, hlt]
    have hfield := fieldAt_pack_fieldBits hx
    rw [take_fieldsOfWidth, fieldsOfWidth_sum hw, List.length_take, Nat.min_eq_left hlt.le, BitVec.toNat_ofNat,
      Nat.mod_eq_of_lt (show w < 2 ^ 7 by omega)] at hfield
    rw [hfield, List.getElem_append_left (by simpa using hlt), List.getElem_map]
  · have hend : (fieldBits (fieldsOfWidth w values)).length ≤ i * w := by
      rw [fieldBits_length, fieldsOfWidth_sum hw]
      exact Nat.mul_le_mul_right w (by omega)
    rw [fieldAt_pack_of_length_le hend, List.getElem_append_right (by simpa using hlt), List.getElem_replicate]

end

/-- A packed stream of k fields of width w is read as those fields and the fields of its tail padding. -/
theorem fieldCount_of_packed {w : Nat} (h1 : 1 ≤ w) (k : Nat) :
    8 * ceil8 (k * w) / w = k + (8 * ceil8 (k * w) - k * w) / w := by
  have hsplit : 8 * ceil8 (k * w) = 8 * ceil8 (k * w) - k * w + k * w := by unfold ceil8; omega
  conv_lhs => rw [hsplit, Nat.add_mul_div_right _ _ h1, Nat.add_comm]

/-- Settles O43: the pass over the finished data returns `range_map_fieldAt_pack`'s fields; the tail padding is under 8
bits. -/
theorem roundTripAtOneWidth : Obligations.RoundTripAtOneWidth := by
  intro s k j r w values h1 h2 hsv hr hwroom hrroom
  have hcmds : values.map (Instr.wInt (BitVec.ofNat 7 w)) =
      (fieldsOfWidth w values).map (fun x => .wInt x.2 x.1) := by simp [fieldsOfWidth]
  have hlen : (fieldsOfWidth w values).length = values.length := List.length_map _
  obtain ⟨t, ht, htr⟩ := execAll_wInts_wFinish (fieldsOfWidth_legal h2 h1 values) hsv
    (by rwa [fieldsOfWidth_sum h2])
  rw [← hcmds] at ht
  rw [hlen] at htr
  have hengine : ∀ i ∈ values.map (Instr.wInt (BitVec.ofNat 7 w)) ++ [.wFinish], i.engine = .writer :=
    List.forall_mem_append.mpr ⟨List.forall_mem_map.mpr fun _ _ => rfl, List.forall_mem_singleton.mpr rfl⟩
  obtain ⟨hreaders, hparams⟩ := execAll_readers_params hengine ht
  have hd : (pack (fieldBits (fieldsOfWidth w values))).length = ceil8 (values.length * w) := by
    rw [pack_length, fieldBits_length, fieldsOfWidth_sum h2]
  have hwidth : (BitVec.ofNat 6 w).toNat = w := Nat.mod_eq_of_lt (by omega)
  obtain ⟨u, hu, hur⟩ := passYieldsDecodeAll { t with serving := .reader j } j r (BitVec.ofNat 6 w)
    (pack (fieldBits (fieldsOfWidth w values))) 1 ⟨rfl, by rw [hreaders]; exact hr⟩ (by omega) (by omega)
    (by rw [hd, hparams]; exact hrroom)
  rw [hwidth, hd, fieldCount_of_packed h1] at hu hur
  refine ⟨t, _, u, ht, htr, hu, ?_, fun h8 => Nat.div_eq_of_lt (by unfold ceil8; omega)⟩
  rw [hur, range_map_fieldAt_pack h2 (fun n => (Port.reader j, Response.mk .ok (.word (BitVec.ofNat 32 n)))),
    ← List.append_assoc]
  rfl

end Sys2Proof.Machine
end

section
/-! PROOF. The status of a command is the table's (60_exceptions R160), and a command answered with an error is only
answered (R159): the refusals of R153 to R157 are read off the table. -/

namespace Sys2Proof.Machine

/-! ### The status of a writer command -/

/-- The order of checks of the appending commands: phase, operands, capacity (40_bitwriter R100). -/
theorem Writer.append_status (cap : Nat) (bad : Option Status) (k : Nat) (effect : Writer → Writer) (w : Writer) :
    (w.append cap bad k effect).2.status =
      if w.phase = .finished then .writerFinished
      else bad.getD (if cap < ceil8 (w.bitlen + k) then .capacityExceeded else .ok) := by
  rcases Writer.append_cases cap bad k effect w with ⟨hp, h⟩ | ⟨hp, st, rfl, h⟩ | ⟨hp, rfl, hcap, h⟩ | ⟨hp, rfl, hcap, h⟩
  · simp [h, hp]
  · simp [h, hp]
  · simp [h, hp, hcap]
  · simp [h, hp, hcap]

theorem intWidthCheck_getD (w : BitVec 7) (st : Status) :
    (intWidthCheck w).getD st = if w.toNat = 0 ∨ 64 < w.toNat then .invalidFieldWidth else st := by
  simp only [intWidthCheck, Config.intWidthMin, Config.intWidthMax, Nat.lt_one_iff]
  split <;> rfl

theorem textLengthCheck_getD (f : BitVec 12) (text : List Byte) (st : Status) :
    (textLengthCheck f text).getD st = if f.toNat < text.length then .fieldOverflow else st := by
  unfold textLengthCheck
  split <;> rfl

/-- A command carried out at a writer has the status of R160's table. -/
theorem writerEffect_status (cap : Nat) (i : Instr) (w : Writer) :
    (writerEffect cap i w).2.status = writerStatus cap w i := by
  cases i with
  | wNew | rInit _ _ | rNext => rfl
  | wBit _ | wBytes _ => exact Writer.append_status ..
  | wInt width _ => rw [writerEffect, Writer.cmdInt, Writer.append_status, intWidthCheck_getD, writerStatus]
  | wStr f text => rw [writerEffect, Writer.cmdStr, Writer.append_status, textLengthCheck_getD, writerStatus]
  | wFinish => cases hp : w.phase <;> simp [writerEffect, Writer.cmdFinish, writerStatus, hp]

/-- A command that the table gives an error is refused by the writer (60_exceptions R159). -/
theorem writerEffect_of_error {cap : Nat} {i : Instr} {w : Writer} (herr : (writerStatus cap w i).isError = true) :
    writerEffect cap i w = (w, Response.only (writerStatus cap w i)) := by
  rw [← writerEffect_status] at herr ⊢
  rcases writerEffect_cases cap i w with ⟨hw, -, hdata⟩ | ⟨-, h⟩ | ⟨-, -, h⟩ | ⟨-, -, -, -, h, -⟩
  · exact Prod.ext hw (by rw [Response.only, ← hdata])
  · rw [h] at herr; cases herr
  · rw [h] at herr; cases herr
  · rw [h] at herr; cases herr

/-! ### The status of a reader command -/

theorem Reader.cmdInit_status (cap : Nat) (w : BitVec 6) (bytes : List Byte) (r : Reader) :
    (r.cmdInit cap w bytes).2.status = readerStatus cap r (.rInit w bytes) := by
  simp only [Reader.cmdInit, readerWidthCheck, sourceLengthCheck, readerStatus, Config.fwMin, Config.fwMax,
    Nat.lt_one_iff]
  split_ifs <;> rfl

theorem Reader.cmdNext_status {cap : Nat} {r : Reader} (hi : r.Inv cap) :
    r.cmdNext.2.status = readerStatus cap r .rNext := by
  cases hp : r.phase with
  | idle | exhausted => simp [Reader.cmdNext, readerStatus, hp]
  | active =>
    by_cases hroom : r.bitCursor + r.fw.toNat ≤ 8 * r.src.length
    · simp [(Reader.cmdNext_of_room hi hp hroom).1, readerStatus, hp, hroom]
    · simp [(Reader.cmdNext_of_no_room hi hp hroom).1, readerStatus, hp, not_le.mp hroom]

/-- A command carried out at a reader that meets the invariant has the status of R160's table. -/
theorem readerEffect_status {cap : Nat} {r : Reader} (hi : r.Inv cap) (i : Instr) :
    (readerEffect cap i r).2.status = readerStatus cap r i := by
  cases i with
  | rInit w bytes => exact Reader.cmdInit_status cap w bytes r
  | rNext => exact Reader.cmdNext_status hi
  | wNew | wBit _ | wInt _ _ | wBytes _ | wStr _ _ | wFinish => rfl

/-- The error statuses are the table's at every reader, outside the invariant too: R_NEXT's only error is READER_IDLE. -/
theorem readerEffect_error_iff {cap : Nat} {i : Instr} {r : Reader} {st : Status} (herr : st.isError = true) :
    (readerEffect cap i r).2.status = st ↔ readerStatus cap r i = st := by
  cases i with
  | rInit w bytes => rw [readerEffect, Reader.cmdInit_status]
  | rNext =>
    cases hp : r.phase with
    | idle | exhausted => simp [readerEffect, Reader.cmdNext, readerStatus, hp]
    | active =>
      have hpull := Reader.pull_isError (r.src.drop r.ridx) r
      have htable : (readerStatus cap r .rNext).isError = false := by
        simp only [readerStatus, hp, reduceCtorEq, if_false, false_or]
        split <;> rfl
      rw [readerEffect, Reader.cmdNext_of_active hp]
      constructor
      · rintro rfl; simp [hpull] at herr
      · rintro rfl; simp [htable] at herr
  | wNew | wBit _ | wInt _ _ | wBytes _ | wStr _ _ | wFinish => rfl

/-- A command that the table gives an error is refused by the reader (60_exceptions R159). -/
theorem readerEffect_of_error {cap : Nat} {i : Instr} {r : Reader} (herr : (readerStatus cap r i).isError = true) :
    readerEffect cap i r = (r, Response.only (readerStatus cap r i)) := by
  have hst := (readerEffect_error_iff herr).mpr rfl
  rw [← hst] at herr ⊢
  obtain ⟨hr, hdata⟩ := readerEffect_error herr
  exact Prod.ext hr (by rw [Response.only, ← hdata])

/-! ### The status of a command in the machine -/

/-- The status of a command is the one the table has for the engine it is served at; at a reader outside the invariant
this is so of the errors. -/
theorem exec_status {s t : State} {i : Instr} {r : Response} (h : exec i s = .next t)
    (hresp : t.responses = s.responses ++ [(s.serving, r)]) :
    (∃ k w, s.ServesWriter k w ∧ writerStatus s.params.wbufBytes w i = r.status) ∨
      (∃ k rd, s.ServesReader k rd ∧
        (r.status.isError = true → readerStatus s.params.rbufBytes rd i = r.status)) := by
  rcases exec_next h with ⟨k, w, hsv, rfl⟩ | ⟨k, rd, hsv, rfl⟩
  · obtain rfl : (writerEffect s.params.wbufBytes i w).2 = r := by simpa [hsv.1] using hresp
    exact .inl ⟨k, w, hsv, (writerEffect_status _ i w).symm⟩
  · obtain rfl : (readerEffect s.params.rbufBytes i rd).2 = r := by simpa [hsv.1] using hresp
    exact .inr ⟨k, rd, hsv, fun herr => (readerEffect_error_iff herr).mp rfl⟩

/-- A command at a writer that the table gives an error is refused. -/
theorem exec_refused_at_writer {s : State} {k : Nat} {w : Writer} {i : Instr} {st : Status} (hsv : s.ServesWriter k w)
    (hst : writerStatus s.params.wbufBytes w i = st) (herr : st.isError = true) :
    exec i s = .next (s.writerResult k w ⟨st, .empty⟩) := by
  subst hst
  rw [exec_at_writer i hsv, writerEffect_of_error herr]
  rfl

/-- A command at a reader that the table gives an error is refused. -/
theorem exec_refused_at_reader {s : State} {k : Nat} {r : Reader} {i : Instr} {st : Status} (hsv : s.ServesReader k r)
    (hst : readerStatus s.params.rbufBytes r i = st) (herr : st.isError = true) :
    exec i s = .next (s.readerResult k r ⟨st, .empty⟩) := by
  subst hst
  rw [exec_at_reader i hsv, readerEffect_of_error herr]
  rfl

/-! ### The refusals -/

/-- Settles O20, by the order of checks of each command. -/
theorem finishedWriterRefuses : Obligations.FinishedWriterRefuses := by
  intro s k w i hsv hp he hn
  rw [exec_at_writer i hsv, writerEffect_of_finished hp he hn]
  rfl

/-- Settles O32: the phase is checked first. -/
theorem idleReaderRefuses : Obligations.IdleReaderRefuses := by
  intro s k r hsv hp
  exact exec_refused_at_reader hsv (by simp [readerStatus, hp]) rfl

/-- INVALID_FIELD_WIDTH at a writer is for a W_INT of width 0 or above 64 (60_exceptions R153). -/
theorem of_writerStatus_invalidFieldWidth {cap : Nat} {w : Writer} {i : Instr}
    (h : writerStatus cap w i = .invalidFieldWidth) :
    ∃ width value, i = .wInt width value ∧ (width.toNat = 0 ∨ 64 < width.toNat) := by
  cases i with
  | wInt width value =>
    refine ⟨width, value, rfl, ?_⟩
    by_contra hlegal
    simp only [writerStatus, if_neg hlegal] at h
    split_ifs at h
  | wNew | rInit _ _ | rNext => cases h
  | wBit _ | wBytes _ | wStr _ _ | wFinish =>
    simp only [writerStatus] at h
    split_ifs at h

/-- INVALID_FIELD_WIDTH at a reader is for an R_INIT of width 0 or above 32 (60_exceptions R153). -/
theorem of_readerStatus_invalidFieldWidth {cap : Nat} {r : Reader} {i : Instr}
    (h : readerStatus cap r i = .invalidFieldWidth) :
    ∃ width bytes, i = .rInit width bytes ∧ (width.toNat = 0 ∨ 32 < width.toNat) := by
  cases i with
  | rInit width bytes =>
    refine ⟨width, bytes, rfl, ?_⟩
    by_contra hlegal
    simp only [readerStatus, if_neg hlegal] at h
    split_ifs at h
  | rNext =>
    simp only [readerStatus] at h
    split_ifs at h
  | wNew | wBit _ | wInt _ _ | wBytes _ | wStr _ _ | wFinish => cases h

/-- FIELD_OVERFLOW at a writer is for a W_STR of a text longer than its field (60_exceptions R154). -/
theorem of_writerStatus_fieldOverflow {cap : Nat} {w : Writer} {i : Instr}
    (h : writerStatus cap w i = .fieldOverflow) : ∃ f text, i = .wStr f text ∧ f.toNat < text.length := by
  cases i with
  | wStr f text =>
    refine ⟨f, text, rfl, ?_⟩
    by_contra hlegal
    simp only [writerStatus, if_neg hlegal] at h
    split_ifs at h
  | wNew | rInit _ _ | rNext => cases h
  | wBit _ | wInt _ _ | wBytes _ | wFinish =>
    simp only [writerStatus] at h
    split_ifs at h

/-- No command at a reader is answered with FIELD_OVERFLOW (60_exceptions R154). -/
theorem readerStatus_ne_fieldOverflow (cap : Nat) (r : Reader) (i : Instr) : readerStatus cap r i ≠ .fieldOverflow := by
  intro h
  cases i with
  | rInit _ _ | rNext =>
    simp only [readerStatus] at h
    split_ifs at h
  | wNew | wBit _ | wInt _ _ | wBytes _ | wStr _ _ | wFinish => cases h

/-- Settles O29: the table's rows with INVALID_FIELD_WIDTH. -/
theorem invalidWidthsRefused : Obligations.InvalidWidthsRefused := by
  refine ⟨fun s k w width value hsv hp hw => ?_, fun s k r width bytes hsv hw => ?_, fun s t i r h hresp hst => ?_⟩
  · exact exec_refused_at_writer hsv (by simp [writerStatus, hp, hw]) rfl
  · exact exec_refused_at_reader hsv (if_pos (hw.imp_left Nat.lt_one_iff.mp)) rfl
  · rcases exec_status h hresp with ⟨k, w, -, htable⟩ | ⟨k, rd, -, htable⟩
    · exact .inl (of_writerStatus_invalidFieldWidth (htable.trans hst))
    · obtain ⟨width, bytes, hi, hw⟩ := of_readerStatus_invalidFieldWidth ((htable (by rw [hst]; rfl)).trans hst)
      exact .inr ⟨width, bytes, hi, hw.imp_left Nat.lt_one_iff.mpr⟩

/-- Settles O30: the table's row with FIELD_OVERFLOW. -/
theorem longTextRefused : Obligations.LongTextRefused := by
  refine ⟨fun s k w f text hsv hp hlong => ?_, fun s t i r h hresp hst => ?_⟩
  · exact exec_refused_at_writer hsv (by simp [writerStatus, hp, hlong]) rfl
  · rcases exec_status h hresp with ⟨k, w, -, htable⟩ | ⟨k, rd, -, htable⟩
    · exact of_writerStatus_fieldOverflow (htable.trans hst)
    · exact absurd ((htable (by rw [hst]; rfl)).trans hst) (readerStatus_ne_fieldOverflow _ rd i)

/-- Settles O31: the table's rows with CAPACITY_EXCEEDED. -/
theorem capacityRefused : Obligations.CapacityRefused := by
  refine ⟨fun s k w b hsv hp hcap => ?_, fun s k w width value hsv hp h1 h64 hcap => ?_,
    fun s k w bytes hsv hp hcap => ?_, fun s k w f text hsv hp hlen hcap => ?_,
    fun s k r width bytes hsv h1 h32 hcap => ?_⟩
  · exact exec_refused_at_writer hsv (by simp [writerStatus, hp, hcap]) rfl
  · have hlegal : ¬ (width.toNat = 0 ∨ 64 < width.toNat) := by omega
    exact exec_refused_at_writer hsv (by simp [writerStatus, hp, hlegal, hcap]) rfl
  · exact exec_refused_at_writer hsv (by simp [writerStatus, hp, hcap]) rfl
  · exact exec_refused_at_writer hsv (by simp [writerStatus, hp, not_lt.mpr hlen, hcap]) rfl
  · have hlegal : ¬ (width.toNat = 0 ∨ 32 < width.toNat) := by omega
    exact exec_refused_at_reader hsv (by simp [readerStatus, hlegal, hcap]) rfl

/-! ### What an error leaves -/

theorem State.ServesWriter.writerResult_same {s : State} {k : Nat} {w : Writer} (h : s.ServesWriter k w)
    (r : Response) : s.writerResult k w r = s.respond r := by
  obtain ⟨hk, rfl⟩ := List.getElem?_eq_some_iff.mp h.2
  simp [State.writerResult, State.respond, h.1]

theorem State.ServesReader.readerResult_same {s : State} {k : Nat} {rd : Reader} (h : s.ServesReader k rd)
    (r : Response) : s.readerResult k rd r = s.respond r := by
  obtain ⟨hk, rfl⟩ := List.getElem?_eq_some_iff.mp h.2
  simp [State.readerResult, State.respond, h.1]

/-- A command answered with an error is only answered, without data (60_exceptions R159). -/
theorem eq_respond_of_error {s t : State} {i : Instr} {r : Response} (h : exec i s = .next t)
    (hresp : t.responses = s.responses ++ [(s.serving, r)]) (herr : r.status.isError = true) :
    r.data = .empty ∧ t = s.respond r := by
  have hexec : exec i s = .next (s.respond ⟨r.status, .empty⟩) := by
    rcases exec_status h hresp with ⟨k, w, hsv, htable⟩ | ⟨k, rd, hsv, htable⟩
    · rw [exec_refused_at_writer hsv htable herr, hsv.writerResult_same]
    · rw [exec_refused_at_reader hsv (htable herr) herr, hsv.readerResult_same]
  rw [hexec] at h
  cases h
  have hr : ⟨r.status, .empty⟩ = r := by simpa using hresp
  exact ⟨by rw [← hr], by rw [hr]⟩

/-- A command runs the same after a response: it reads no response (log entry 7). -/
theorem exec_respond {s t : State} {j : Instr} (h : exec j s = .next t) (r : Response) :
    ∃ r', t.responses = s.responses ++ [(s.serving, r')] ∧
      exec j (s.respond r) = .next { t with responses := (s.respond r).responses ++ [(s.serving, r')] } := by
  rcases exec_next h with ⟨k, w, hsv, rfl⟩ | ⟨k, rd, hsv, rfl⟩
  · have hsv' : (s.respond r).ServesWriter k w := hsv
    exact ⟨_, by rw [hsv.1]; rfl, by rw [exec_at_writer j hsv', hsv.1]; rfl⟩
  · have hsv' : (s.respond r).ServesReader k rd := hsv
    exact ⟨_, by rw [hsv.1]; rfl, by rw [exec_at_reader j hsv', hsv.1]; rfl⟩

/-- A served transaction that does not decode is answered ILLEGAL_COMMAND and changes no engine (60_exceptions R152,
R159). -/
theorem step_of_decode_error {s : State} {p : Port} {t : Transaction} {e : DecodeError}
    {left : List (Port × Transaction)} {rest : List Event} (hserve : s.WillServe p t left rest)
    (hp : s.hasPort p = true) (hd : decode t = .error e) :
    step s = .next (s.refusal p left rest .illegalCommand) :=
  step_eq_refusal hserve hp fun i u hok _ => by rw [hd] at hok; cases hok

/-- Settles O33: the state after an error differs in the list of responses, which no command reads. -/
theorem errorChangesNothing : Obligations.ErrorChangesNothing := by
  refine ⟨fun s t i r => eq_respond_of_error, fun s t t' i j r h hresp herr hj => ?_,
    fun s p t e left rest => step_of_decode_error⟩
  obtain ⟨-, rfl⟩ := eq_respond_of_error h hresp herr
  obtain ⟨r', hr', hexec⟩ := exec_respond hj r
  exact ⟨_, r', hexec, hr', rfl⟩

/-! ### The status of a served transaction -/

/-- Settles O34: the table's status at the served engine, where the transaction decodes. -/
theorem statusPriority : Obligations.StatusPriority := by
  refine ⟨fun s k w t left rest hserve hw => ?_, fun s k rd t left rest hserve hrd hi => ?_⟩
  · cases hd : decode t with
    | ok i =>
      have hsv : State.ServesWriter { s with agenda := rest, inflight := left, serving := .writer k } k w := ⟨rfl, hw⟩
      exact ⟨_, _, ((stepRunsServedCommand s _ t i left hd).1 rest hserve).trans (exec_at_writer i hsv), rfl,
        writerEffect_status _ i w⟩
    | error e =>
      have hp : s.hasPort (.writer k) = true := decide_eq_true (List.getElem?_eq_some_iff.mp hw).1
      exact ⟨_, _, step_of_decode_error hserve hp hd, rfl, rfl⟩
  · cases hd : decode t with
    | ok i =>
      have hsv : State.ServesReader { s with agenda := rest, inflight := left, serving := .reader k } k rd := ⟨rfl, hrd⟩
      exact ⟨_, _, ((stepRunsServedCommand s _ t i left hd).1 rest hserve).trans (exec_at_reader i hsv), rfl,
        readerEffect_status hi i⟩
    | error e =>
      have hp : s.hasPort (.reader k) = true := decide_eq_true (List.getElem?_eq_some_iff.mp hrd).1
      exact ⟨_, _, step_of_decode_error hserve hp hd, rfl, rfl⟩

end Sys2Proof.Machine
end

section
/-! PROOF. Where ILLEGAL_COMMAND is answered: R152's causes against the decoder's checks (30_encoding R79 to R83), and
the engine kind that the port tells (R71). -/

namespace Sys2Proof.Machine

/-! ### The decoder's checks in the header's numbers -/

/-- The reserved bits of a format lie between its operand bits and the opcode (30_encoding R82). -/
theorem reservedMask_getLsbD_iff (op : Opcode) :
    ∀ b < 32, op.reservedMask.getLsbD b = true ↔ firstReservedBit op.bits.toNat ≤ b ∧ b < 28 := by
  cases op <;> decide

/-- A reserved bit of the header is 1 exactly where the decoder's mask finds one (30_encoding R82). -/
theorem reservedBit_iff {t : Transaction} {op : Opcode} (ho : opcodeOf t.header = some op) :
    (∃ b, firstReservedBit (opNumber t) ≤ b ∧ b < 28 ∧ t.header.toNat.testBit b = true) ↔
      t.header &&& op.reservedMask ≠ 0#32 := by
  rw [opNumber_of_opcodeOf ho]
  constructor
  · rintro ⟨b, hge, hlt, (hbit : t.header.getLsbD b = true)⟩ hzero
    have hmask := (reservedMask_getLsbD_iff op b (by omega)).mpr ⟨hge, hlt⟩
    have hand := congrArg (fun v => v.getLsbD b) hzero
    simp [hmask, hbit] at hand
  · intro hne
    by_contra hnone
    refine hne (BitVec.eq_of_getLsbD_eq fun b hb => ?_)
    by_contra hset
    obtain ⟨hbit, hmask⟩ : t.header.getLsbD b = true ∧ op.reservedMask.getLsbD b = true := by simpa using hset
    obtain ⟨hge, hlt⟩ := (reservedMask_getLsbD_iff op b hb).mp hmask
    exact hnone ⟨b, hge, hlt, hbit⟩

/-- The payload has the length of R81's table exactly where the decoder finds it so. -/
theorem payload_length_iff {t : Transaction} {op : Opcode} (ho : opcodeOf t.header = some op) :
    t.payload.length = requiredWords t ↔ t.payload.length = op.payloadWords t.header := by
  rw [← payloadWords_eq_requiredWords, payloadWords_of_opcodeOf ho]

theorem carriesSpan_iff {t : Transaction} {op : Opcode} (ho : opcodeOf t.header = some op) :
    carriesSpan t ↔ op.hasSpan = true := by
  rw [carriesSpan, opNumber_of_opcodeOf ho]
  cases op <;> decide

theorem payloadBytes_getElem_eq_zero_iff {p : List Word} {k : Nat} (h : k < (payloadBytes p).length) :
    (payloadBytes p)[k] = 0#8 ↔ laneByte p k = 0 := by
  have hlane := payloadBytes_getElem? p k (by rwa [← payloadBytes_length])
  rw [List.getElem?_eq_getElem h, Option.some.injEq] at hlane
  have hlt : laneByte p k < 256 := Nat.mod_lt _ (by decide)
  rw [hlane, ← BitVec.toNat_inj, BitVec.toNat_ofNat, Nat.mod_eq_of_lt hlt]
  rfl

/-- The lanes after a span are zero exactly where each is zero as a number (30_encoding R79). -/
theorem lanesZero_iff (p : List Word) (n : Nat) :
    lanesZero p n = true ↔ ∀ k, n ≤ k → k < 4 * p.length → laneByte p k = 0 := by
  rw [lanesZero, List.all_eq_true, List.forall_mem_iff_getElem]
  simp only [List.getElem_drop, List.length_drop, beq_iff_eq, payloadBytes_getElem_eq_zero_iff, payloadBytes_length]
  constructor
  · intro h k hge hlt
    obtain ⟨j, rfl⟩ := Nat.exists_eq_add_of_le hge
    exact h j (by omega)
  · intro h j hj
    exact h (n + j) (Nat.le_add_right n j) (by omega)

/-- An unused lane is nonzero exactly where the decoder's check of the lanes fails (30_encoding R79, R81). -/
theorem unusedLane_iff {t : Transaction} {op : Opcode} (ho : opcodeOf t.header = some op) :
    (carriesSpan t ∧ ∃ k, announcedSpan t ≤ k ∧ k < 4 * t.payload.length ∧ laneByte t.payload k ≠ 0) ↔
      ¬ (op.hasSpan = true → lanesZero t.payload (op.spanLength t.header) = true) := by
  rw [carriesSpan_iff ho, Classical.not_imp, lanesZero_iff]
  refine and_congr_right fun hspan => ?_
  rw [announcedSpan_of_opcodeOf ho hspan]
  push Not
  rfl

/-! ### The causes at a port -/

/-- The kind of engine behind a port (30_encoding R71). -/
def Port.engine : Port → Engine
  | .writer _ => .writer
  | .reader _ => .reader

theorem exec_illegal_of_engine_ne {i : Instr} {s : State} (h : i.engine ≠ s.serving.engine) : exec i s = s.illegal := by
  cases hs : s.serving with
  | writer k =>
    cases he : i.engine with
    | writer => rw [he, hs] at h; exact absurd rfl h
    | reader => exact exec_illegal_of_reader_engine he hs
  | reader k =>
    cases he : i.engine with
    | writer => exact exec_illegal_of_writer_engine he hs
    | reader => rw [he, hs] at h; exact absurd rfl h

/-- The reader's opcodes are 8 and 9 (30_encoding R72). -/
theorem foreign_at_writer_iff {t : Transaction} {op : Opcode} (ho : opcodeOf t.header = some op) :
    8 ≤ opNumber t ∧ opNumber t ≤ 9 ↔ (op.instr t.header t.payload).engine ≠ .writer := by
  rw [opNumber_of_opcodeOf ho]
  cases op <;> simp [Opcode.bits, Opcode.instr, Instr.engine]

/-- The writer's opcodes are 1 to 6 (30_encoding R72). -/
theorem foreign_at_reader_iff {t : Transaction} {op : Opcode} (ho : opcodeOf t.header = some op) :
    1 ≤ opNumber t ∧ opNumber t ≤ 6 ↔ (op.instr t.header t.payload).engine ≠ .reader := by
  rw [opNumber_of_opcodeOf ho]
  cases op <;> simp [Opcode.bits, Opcode.instr, Instr.engine]

/-- The causes of R152 that a used opcode leaves, as the checks of the port and of the decoder. -/
theorem malformed_iff_of_opcodeOf {t : Transaction} {op : Opcode} (ho : opcodeOf t.header = some op) (p : Port) :
    Malformed p t ↔ (op.instr t.header t.payload).engine ≠ p.engine ∨ t.header &&& op.reservedMask ≠ 0#32 ∨
      t.payload.length ≠ op.payloadWords t.header ∨
      ¬ (op.hasSpan = true → lanesZero t.payload (op.spanLength t.header) = true) := by
  have hused : ¬ (opNumber t = 0 ∨ opNumber t = 7 ∨ 10 ≤ opNumber t) := by
    rw [← opcodeOf_eq_none_iff, ho]
    nofun
  have hchecks := or_congr (reservedBit_iff ho) (or_congr (payload_length_iff ho).not (unusedLane_iff ho))
  cases p with
  | writer k => exact (or_iff_right hused).trans (or_congr (foreign_at_writer_iff ho) hchecks)
  | reader k => exact (or_iff_right hused).trans (or_congr (foreign_at_reader_iff ho) hchecks)

/-- A transaction is malformed at a port exactly where it decodes to no command of the port's kind (60_exceptions
R152). -/
theorem malformed_iff (p : Port) (t : Transaction) :
    Malformed p t ↔ ∀ i, decode t = .ok i → i.engine ≠ p.engine := by
  cases ho : opcodeOf t.header with
  | none =>
    have hres := (opcodeOf_eq_none_iff t).mp ho
    refine iff_of_true (.inl hres) fun i hd => ?_
    rw [decode_of_reserved hres] at hd
    cases hd
  | some op =>
    rw [malformed_iff_of_opcodeOf ho]
    constructor
    · intro hcause i hd
      obtain ⟨op', ho', hr, hl, hs, rfl⟩ := decode_ok hd
      obtain rfl : op = op' := Option.some.inj (ho.symm.trans ho')
      rcases hcause with h | h | h | h
      · exact h
      · exact absurd hr h
      · exact absurd hl h
      · exact absurd hs h
    · intro h
      by_contra hnone
      push Not at hnone
      obtain ⟨hengine, hr, hl, hs⟩ := hnone
      exact h _ (decode_of_checks ho hr hl hs) hengine

/-! ### ILLEGAL_COMMAND -/

/-- A writer answers ILLEGAL_COMMAND to no writer command. -/
theorem writerStatus_ne_illegalCommand {i : Instr} (he : i.engine = .writer) (cap : Nat) (w : Writer) :
    writerStatus cap w i ≠ .illegalCommand := by
  intro h
  cases i with
  | wNew => cases h
  | wBit _ | wInt _ _ | wBytes _ | wStr _ _ | wFinish =>
    simp only [writerStatus] at h
    split_ifs at h
  | rInit _ _ | rNext => cases he

/-- A reader answers ILLEGAL_COMMAND to no reader command. -/
theorem readerStatus_ne_illegalCommand {i : Instr} (he : i.engine = .reader) (cap : Nat) (r : Reader) :
    readerStatus cap r i ≠ .illegalCommand := by
  intro h
  cases i with
  | rInit _ _ | rNext =>
    simp only [readerStatus] at h
    split_ifs at h
  | wNew | wBit _ | wInt _ _ | wBytes _ | wStr _ _ | wFinish => cases he

/-- A command of the port's kind is answered with another status than ILLEGAL_COMMAND. -/
theorem exec_status_ne_illegalCommand {s t : State} {i : Instr} {r : Response} (he : i.engine = s.serving.engine)
    (h : exec i s = .next t) (hresp : t.responses = s.responses ++ [(s.serving, r)]) :
    r.status ≠ .illegalCommand := by
  intro hst
  rcases exec_status h hresp with ⟨k, w, hsv, htable⟩ | ⟨k, rd, hsv, htable⟩
  · exact writerStatus_ne_illegalCommand (by rw [he, hsv.1]; rfl) _ w (htable.trans hst)
  · exact readerStatus_ne_illegalCommand (by rw [he, hsv.1]; rfl) _ rd ((htable (by rw [hst]; rfl)).trans hst)

/-- Settles O6: a malformed transaction decodes to no command of the port's kind, and any other does. -/
theorem illegalExactlyWhereMalformed : Obligations.IllegalExactlyWhereMalformed := by
  intro s p t left rest hserve hp
  rw [malformed_iff]
  constructor
  · intro hmal
    refine step_eq_refusal hserve hp fun i u hd hu => exec_illegal_of_engine_ne ?_
    rw [hu]
    exact hmal i hd
  · intro hwell
    push Not at hwell
    obtain ⟨i, hd, he⟩ := hwell
    have hstep := (stepRunsServedCommand s p t i left hd).1 rest hserve
    obtain ⟨u, hu⟩ := exists_exec_next (s := { s with agenda := rest, inflight := left, serving := p }) i
      ((State.hasPort_congr (s := s) rfl rfl p).trans hp)
    obtain ⟨-, -, -, -, -, -, r, hresp⟩ := exec_frame hu
    exact ⟨u, r, hstep.trans hu, hresp, exec_status_ne_illegalCommand he hu hresp⟩

end Sys2Proof.Machine
end

section
/-! PROOF. Where the machine stops and where it does not: only an event or a command at a port with no engine behind it
stops it (60_exceptions R150, R161, R168, log entry 10). -/

namespace Sys2Proof.Machine

/-! ### Missing engines -/

theorem State.deliver_of_missing {s : State} {p : Port} (h : s.hasPort p = false) (t : Transaction) :
    s.deliver p t = .fault .noSuchPort := by simp [State.deliver, h]

theorem State.applyReset_of_missing {s : State} {p : Port} (h : s.hasPort p = false) :
    s.applyReset (.instanceAt p) = .fault .noSuchPort := by simp [State.applyReset, h]

theorem State.illegal_of_missing {s : State} (h : s.hasPort s.serving = false) : s.illegal = .fault .noSuchPort := by
  simp [State.illegal, State.answer, h]

theorem State.onWriter_of_missing {s : State} (h : s.hasPort s.serving = false) (f : Writer → Writer × Response) :
    s.onWriter f = .fault .noSuchPort := by
  unfold State.onWriter
  cases hs : s.serving with
  | writer k =>
    have hk : s.writers[k]? = none := by simpa [hs] using h
    simp only [hk]
  | reader k => exact State.illegal_of_missing h

theorem State.onReader_of_missing {s : State} (h : s.hasPort s.serving = false) (f : Reader → Reader × Response) :
    s.onReader f = .fault .noSuchPort := by
  unfold State.onReader
  cases hs : s.serving with
  | writer k => exact State.illegal_of_missing h
  | reader k =>
    have hk : s.readers[k]? = none := by simpa [hs] using h
    simp only [hk]

/-- Settles O10: each operation looks its port up first. -/
theorem missingInstanceStops : Obligations.MissingInstanceStops := by
  refine ⟨fun s p t rest hag hp => ?_, fun s p rest hag hp => ?_, fun i s hp => ?_⟩
  · rw [step_of_deliver hag]
    exact State.deliver_of_missing (s := { s with agenda := rest })
      ((State.hasPort_congr (s := s) rfl rfl p).trans hp) t
  · rw [step_of_reset hag]
    exact State.applyReset_of_missing (s := { s with agenda := rest })
      ((State.hasPort_congr (s := s) rfl rfl p).trans hp)
  · cases he : i.engine with
    | writer => rw [exec_of_writer s he, State.onWriter_of_missing hp]
    | reader => rw [exec_of_reader s he, State.onReader_of_missing hp]

/-! ### A machine that meets the invariant -/

/-- Serving a port answers under the invariant: a port with a command in flight exists. -/
theorem exists_serve_next {s : State} (hi : s.Inv) (p : Port) : ∃ t, serve p s = .next t := by
  cases htake : takeFirst p s.inflight with
  | none => exact ⟨s, by simp [serve, State.takeCommand, htake]⟩
  | some x =>
    obtain ⟨tr, left⟩ := x
    have hport := (hi.take htake).serving_port
    cases hd : decode tr with
    | ok i =>
      rw [serve_of_decode_ok htake hd]
      exact exists_exec_next i hport
    | error e => exact ⟨_, by simpa [serve, State.takeCommand, htake, hd] using State.illegal_of_hasPort hport⟩

theorem exists_applyReset_next {s : State} {target : ResetTarget} (h : s.EventOk (.reset target)) :
    ∃ t, s.applyReset target = .next t := by
  cases target with
  | all => exact ⟨_, rfl⟩
  | instanceAt p => cases p <;> exact ⟨_, if_pos h⟩

/-- Settles O53, by the next event. -/
theorem stepAlwaysAnswers : Obligations.StepAlwaysAnswers := by
  intro s hi hok
  cases hag : s.agenda with
  | nil =>
    cases hfl : s.inflight with
    | nil => exact ⟨s, deliveryAndWaiting.2.1 s hag hfl⟩
    | cons x left =>
      rw [step_of_empty_agenda hag hfl]
      exact exists_serve_next hi x.1
  | cons e rest =>
    have he : s.EventOk e := hok e (by rw [hag]; rfl)
    cases e with
    | deliver p t => exact ⟨_, deliveryAndWaiting.1 s p t rest hag he⟩
    | serve p =>
      rw [step_of_serve hag]
      exact exists_serve_next (hi.with_agenda rest) p
    | reset target =>
      rw [step_of_reset hag]
      exact exists_applyReset_next (s := { s with agenda := rest }) he

end Sys2Proof.Machine
end

section
/-! PROOF. A reset from outside: the registers it restores and the commands it discards (70_reset R180), and the soft
resets that a command gives (R182). -/

namespace Sys2Proof.Machine

/-! ### What a reset leaves in flight -/

theorem ne_of_mem_otherPorts {p : Port} {l : List (Port × Transaction)} {x : Port × Transaction}
    (h : x ∈ otherPorts p l) : x.1 ≠ p := by
  simpa using (List.mem_filter.mp h).2

/-- The commands at every other port stay, in their order. -/
theorem filter_otherPorts_of_ne {p q : Port} (h : q ≠ p) (l : List (Port × Transaction)) :
    (otherPorts p l).filter (fun x => decide (x.1 = q)) = l.filter (fun x => decide (x.1 = q)) := by
  rw [otherPorts, List.filter_filter]
  refine List.filter_congr fun x _ => ?_
  by_cases hx : x.1 = q
  · simp [hx, h]
  · simp [hx]

/-! ### The step that resets an existing instance -/

theorem step_of_reset_writer {s : State} {k : Nat} {w : Writer} {rest : List Event}
    (ha : s.agenda = .reset (.instanceAt (.writer k)) :: rest) (hw : s.writers[k]? = some w) :
    step s = .next { s with
      agenda := rest, writers := s.writers.set k Writer.reset, inflight := otherPorts (.writer k) s.inflight } := by
  rw [step_of_reset ha]
  exact if_pos (decide_eq_true (List.getElem?_eq_some_iff.mp hw).1)

theorem step_of_reset_reader {s : State} {k : Nat} {r : Reader} {rest : List Event}
    (ha : s.agenda = .reset (.instanceAt (.reader k)) :: rest) (hr : s.readers[k]? = some r) :
    step s = .next { s with
      agenda := rest, readers := s.readers.set k Reader.reset, inflight := otherPorts (.reader k) s.inflight } := by
  rw [step_of_reset ha]
  exact if_pos (decide_eq_true (List.getElem?_eq_some_iff.mp hr).1)

/-- Settles O12: what a reset of a port leaves in flight is the commands at the other ports. -/
theorem resetEventDiscards : Obligations.ResetEventDiscards := by
  refine ⟨fun s k w rest ha hw => ?_, fun s k r rest ha hr => ?_, fun s rest ha => ?_⟩
  · exact ⟨_, step_of_reset_writer ha hw, fun _ => ne_of_mem_otherPorts, fun _ hq => filter_otherPorts_of_ne hq _⟩
  · exact ⟨_, step_of_reset_reader ha hr, fun _ => ne_of_mem_otherPorts, fun _ hq => filter_otherPorts_of_ne hq _⟩
  · rw [step_of_reset ha, State.applyReset, List.map_const', List.map_const']
    rfl

/-! ### No command returns a reader to Idle -/

/-- R_NEXT's loop keeps RPHASE or ends the pass; this holds outside the invariant too. -/
theorem Reader.pull_phase (rest : List Byte) (r : Reader) :
    (r.pull rest).1.phase = r.phase ∨ (r.pull rest).1.phase = .exhausted := by
  induction rest generalizing r with
  | nil =>
    unfold Reader.pull
    split
    · exact .inl rfl
    · exact .inr rfl
  | cons b rest ih =>
    unfold Reader.pull
    split
    · exact .inl rfl
    · exact ih (r.shiftIn b)

theorem Reader.phase_eq_idle_of_cmdNext {r : Reader} (h : r.cmdNext.1.phase = .idle) : r.phase = .idle := by
  by_cases ha : r.phase = .active
  · rw [Reader.cmdNext_of_active ha] at h
    rcases Reader.pull_phase (r.src.drop r.ridx) r with hkept | hexhausted
    · exact hkept.symm.trans h
    · rw [hexhausted] at h
      cases h
  · rwa [Reader.cmdNext_of_not_active ha] at h

theorem phase_eq_idle_of_readerEffect {cap : Nat} {i : Instr} {r : Reader}
    (h : (readerEffect cap i r).1.phase = .idle) : r.phase = .idle := by
  cases i with
  | rInit w bytes =>
    rw [readerEffect] at h
    rcases Reader.cmdInit_cases cap w bytes r with hkept | hstart
    · rwa [hkept] at h
    · rw [hstart] at h
      cases h
  | rNext => exact Reader.phase_eq_idle_of_cmdNext h
  | wNew | wBit _ | wInt _ _ | wBytes _ | wStr _ _ | wFinish => exact h

/-- Settles O13: the soft resets by their commands' completion, the last clause by the one reader a command reaches. -/
theorem softResets : Obligations.SoftResets := by
  refine ⟨fun s k w rest hsv ha => ?_, fun s s' k r r' w bytes hsv hsv' h1 h2 hcap hcap' => ?_,
    fun s t i k r r' h hr hr' hidle => ?_⟩
  · exact ⟨_, _, wNewCompletes s k w hsv, step_of_reset_writer ha hsv.2, rfl, rfl⟩
  · exact ⟨_, _, rInitCompletes s k r w bytes hsv h1 h2 hcap, rInitCompletes s' k r' w bytes hsv' h1 h2 hcap',
      by rw [hsv.readerResult_self, hsv'.readerResult_self]⟩
  · rcases exec_reader_cases h hr hr' with rfl | ⟨-, rfl⟩
    · exact hidle
    · exact phase_eq_idle_of_readerEffect hidle

end Sys2Proof.Machine
end
